-- ==== Sys2Proof/Word.lean ====
section
/-! DEFINITION. The value types of the SLUGID core (spec/00_scope.md R5 to R11): every value is an unsigned bit
pattern, and an array is a vector whose index 0 is the first character of the text as a person reads it. -/

namespace Sys2Proof

/-- A 128-bit UUID value (R7, `UUID_BITS`). -/
abbrev UUID := BitVec 128

/-- One 6-bit symbol, 0 to 63 (R7 `Sym`, `SYM_BITS`). -/
abbrev Symbol := BitVec 6

/-- One 8-bit character code (R7 `Char`, `CHAR_BITS`, R74). -/
abbrev Code := BitVec 8

/-- The 22 symbols of a slug, `sym[0]` first (R7 `SymVec`, `NSYM`). -/
abbrev SymVec := Vector Symbol 22

/-- The 22 characters of a slug, `chr[0]` first (R7 `Slug`). -/
abbrev Slug := Vector Code 22

/-- The 176-bit operand and result bus (R6 `DATA_BITS`). -/
abbrev Bus := BitVec 176

/-- The 186-bit command word `CW` (R50, `CMD_BITS`). -/
abbrev CommandWord := BitVec 186

/-- The 178-bit response word `RW` (R57, `RSP_BITS`). -/
abbrev ResponseWord := BitVec 178

/-- Document numbering of the bits of a value: bit 0 is the most significant (R8 (b)), and every bit past the value's
128 is 0, the four pad bits 128 to 131 of the last symbol among them (R45). -/
def ubit (u : UUID) (k : Nat) : Bool := u.getMsbD k

/-- Byte `j` of a value, byte 0 the most significant (R9, R42). -/
def byte (u : UUID) (j : Nat) : BitVec 8 := u.extractLsb' (120 - 8 * j) 8

/-- Hexadecimal digit `d` of a value, digit 0 the most significant (R11, R45). -/
def hexDigit (u : UUID) (d : Nat) : BitVec 4 := u.extractLsb' (124 - 4 * d) 4

end Sys2Proof
end

