-- ==== Sys2Proof/Machine/Alphabet.lean ====
section
/-! DEFINITION. The alphabet table and its two lookups (spec/40_alphabet.md R70 to R76). That the two lookups are inverse on the
table, and its 64 codes pairwise different (R73), is the laws `c2s_s2c` and `c2s_eq_some_iff` of Laws/Codec.lean and the
statement `Obligations.AlphabetIsABijection`. -/

namespace Sys2Proof.Machine

/-- `ALPHA`, the column "code" of R70 in value order, sixteen values a row; a constant, not state (R30, R75). -/
def alpha : List Code :=
  [0x41, 0x42, 0x43, 0x44, 0x45, 0x46, 0x47, 0x48, 0x49, 0x4A, 0x4B, 0x4C, 0x4D, 0x4E, 0x4F, 0x50] ++
  [0x51, 0x52, 0x53, 0x54, 0x55, 0x56, 0x57, 0x58, 0x59, 0x5A, 0x61, 0x62, 0x63, 0x64, 0x65, 0x66] ++
  [0x67, 0x68, 0x69, 0x6A, 0x6B, 0x6C, 0x6D, 0x6E, 0x6F, 0x70, 0x71, 0x72, 0x73, 0x74, 0x75, 0x76] ++
  [0x77, 0x78, 0x79, 0x7A, 0x30, 0x31, 0x32, 0x33, 0x34, 0x35, 0x36, 0x37, 0x38, 0x39, 0x2D, 0x5F]

/-- `S2C(v) = ALPHA[v]` (R71). Every one of the 64 indices is populated (R41), so the default is never read. -/
def s2c (v : Symbol) : Code := alpha.getD v.toNat 0#8

/-- `C2S(c)`: the `v` with `ALPHA[v] == c`, or invalid (R72): the table searched by content (R41). -/
def c2s (c : Code) : Option Symbol := (alpha.findIdx? (· == c)).map (BitVec.ofNat 6)

end Sys2Proof.Machine
end

