-- ==== Sys2Proof/Syntax.lean ====
section
/-! DEFINITION. The four commands of the SLUGID core (spec/00_scope.md R2, spec/30_encoding.md R50 to R56), one
constructor per row of spec/opcode_table.json. A constructor keeps every field of the command word, the ignored ones
too, so that "ignored" (R56) is a fact about the meanings and no bit of the word is lost in decoding. -/

namespace Sys2Proof

/-- A command: its operands as spec/30_encoding.md R51 cuts them from the command word. -/
inductive Instr where
  /-- `ENCODE` (R90): `uuid` is `data[127:0]`; `len` and `hi`, which is `data[175:128]`, are ignored (R54, R56). -/
  | encode (len : BitVec 8) (hi : BitVec 48) (uuid : UUID)
  /-- `DECODE` (R91): the string length, saturated at 255, and the 22 character lanes (R53, R55). -/
  | decode (len : BitVec 8) (chr : Slug)
  /-- `RANDV4` (R105): no operand; `len` and `data` are ignored (R56). -/
  | randv4 (len : BitVec 8) (data : Bus)
  /-- `RANDNICE` (R106): no operand; `len` and `data` are ignored (R56). -/
  | randnice (len : BitVec 8) (data : Bus)
  deriving DecidableEq, Repr

end Sys2Proof
end

