-- ==== Sys2Proof/WellFormed.lean ====
section
/-! DEFINITION. Which commands are legal, and which are in the form the assembler writes.
Legality: spec/30_encoding.md R62, "Illegal commands: none. Every one of the 2^186 command words is a legal command";
the widths are carried by the types of spec/00_scope.md R7. The assembler's form (R56, R64): ignored bits are zero. -/

namespace Sys2Proof

/-- Every command is legal (R62): a `len` other than 22 and a character outside the alphabet are ordinary operands
of `DECODE` with a response of their own, and no value of an ignored field is illegal (R56). -/
def Instr.wellFormed : Instr → Bool
  | .encode _ _ _ => true
  | .decode _ _ => true
  | .randv4 _ _ => true
  | .randnice _ _ => true

/-- The form in which the assembler of R64 writes a command: "The assembler of rule R64 writes ignored bits as zero"
(R56). For `DECODE` the ignored bits the assembler writes are the lanes at or beyond `len`. -/
def Instr.assembled : Instr → Bool
  | .encode len hi _ => len == 0#8 && hi == 0#48
  | .decode len chr => decide (∀ i : Fin 22, len.toNat ≤ i.val → chr[i.val] = 0#8)
  | .randv4 len data => len == 0#8 && data == 0#176
  | .randnice len data => len == 0#8 && data == 0#176

end Sys2Proof
end

