-- ==== Sys2Proof/Decode.lean ====
section
/-! DEFINITION. The command word, its decoder and its encoder (spec/30_encoding.md R50 to R56, R62 to R64), and the
lanes of the data bus (spec/20_memory.md R44). The decoder refuses nothing, since no command word is illegal (R62). -/

namespace Sys2Proof

/-- The concatenation `v[0] ∥ v[1] ∥ ...` of a sequence, the first element most significant (R10, R43), at width `N`. -/
def concatBE {w : Nat} (N : Nat) (v : List (BitVec w)) : BitVec N :=
  v.foldl (fun acc x => (acc <<< w) ||| x.setWidth N) 0#N

/-- Character lane `i` of a data bus, `data[175-8i : 168-8i]` (R44, R51). -/
def lane (data : Bus) (i : Nat) : Code := data.extractLsb' (168 - 8 * i) 8

/-- The 22 character lanes of a data bus, lane 0 first (R44, R51). -/
def lanes (data : Bus) : Slug := Vector.ofFn fun i : Fin 22 => lane data i.val

/-- 22 characters laid out on a data bus, character 0 most significant (R44, R59). -/
def ofLanes (chr : Slug) : Bus := concatBE 176 chr.toList

/-- `CW = cmd_data ∥ cmd_len ∥ cmd_op` (R50). -/
def commandWord (data : Bus) (len : BitVec 8) (op : BitVec 2) : CommandWord := data ++ len ++ op

/-- Field `op = CW[1:0]` (R51). -/
def CommandWord.op (cw : CommandWord) : BitVec 2 := cw.extractLsb' 0 2

/-- Field `len = CW[9:2]` (R51). -/
def CommandWord.len (cw : CommandWord) : BitVec 8 := cw.extractLsb' 2 8

/-- Field `data = CW[185:10]` (R51). -/
def CommandWord.data (cw : CommandWord) : Bus := cw.extractLsb' 10 176

/-- The command of a command word: told from `CW[1:0]` alone (R50), by the opcode values of R52, with the operand
assembly of R54 and R55. Total, and it refuses no word (R62). -/
def decodeWord (cw : CommandWord) : Instr :=
  match CommandWord.op cw with
  | 0#2 => .encode (CommandWord.len cw) ((CommandWord.data cw).extractLsb' 128 48)
      ((CommandWord.data cw).extractLsb' 0 128)
  | 1#2 => .decode (CommandWord.len cw) (lanes (CommandWord.data cw))
  | 2#2 => .randv4 (CommandWord.len cw) (CommandWord.data cw)
  | 3#2 => .randnice (CommandWord.len cw) (CommandWord.data cw)

/-- The opcode of a command (R52). -/
def Instr.op : Instr → BitVec 2
  | .encode _ _ _ => 0#2
  | .decode _ _ => 1#2
  | .randv4 _ _ => 2#2
  | .randnice _ _ => 3#2

/-- The `len` field of a command (R51). -/
def Instr.lenField : Instr → BitVec 8
  | .encode len _ _ => len
  | .decode len _ => len
  | .randv4 len _ => len
  | .randnice len _ => len

/-- The `data` field of a command (R51, R54, R55). -/
def Instr.dataField : Instr → Bus
  | .encode _ hi uuid => hi ++ uuid
  | .decode _ chr => ofLanes chr
  | .randv4 _ data => data
  | .randnice _ data => data

/-- The command word of a command (R50 to R52). -/
def encodeWord (i : Instr) : CommandWord := commandWord i.dataField i.lenField i.op

/-- `ENCODE <uuid>` as the assembler writes it: ignored bits zero (R64). -/
def assembleEncode (u : UUID) : Instr := .encode 0#8 0#48 u

/-- `DECODE "<string>"` as the assembler writes it, for a string of any length: `len = min(n, 255)`, the first
`min(n, 22)` characters in lanes 0 upward, the other lanes zero (R53, R55, R64). -/
def assembleDecode (str : List Code) : Instr :=
  .decode (BitVec.ofNat 8 (min str.length 255)) (Vector.ofFn fun i : Fin 22 => str.getD i.val 0#8)

/-- `RANDV4` as the assembler writes it (R64). -/
def assembleRandv4 : Instr := .randv4 0#8 0#176

/-- `RANDNICE` as the assembler writes it (R64). -/
def assembleRandnice : Instr := .randnice 0#8 0#176

/-- The command the decoder reads from the `nbits` low bits of `w`. A command word has 186 bits and no bit above them
("top 2 bits of the first digit not part of the word", spec/95_test_vectors.md V8), so none above is read. -/
def decodeTableWord (nbits w : Nat) : Option Instr := some (decodeWord (BitVec.ofNat 186 (w % 2 ^ nbits)))

end Sys2Proof
end

