-- ==== Sys2Proof/Config.lean ====
section
/-! DEFINITION. What the spec leaves open: constants with no body, so that nothing can be proved of their values.
A free value is applied to the occasion counter of State, which makes it "any value, possibly different on each
occasion" (spec/30_encoding.md R61, spec/93_implementation_defined.md U1 and U2). -/

namespace Sys2Proof.Config

/-- The unspecified bits of `RSP_DATA` on each occasion (R25, R36, R61; U1, U2; notes/assumptions/3.md). -/
opaque freeRspData : Nat → Bus

/-- The unspecified `RSP_STATUS` after each reset step (R36; U2; notes/assumptions/4.md). -/
opaque freeRspStatus : Nat → BitVec 2

/-- `LATENCY`, the open parameter of R6: the time to a response, on each occasion. "no rule reads it" (D20, R148), and
so no definition of the model does (notes/assumptions/10.md). -/
opaque latency : Nat → Nat

end Sys2Proof.Config
end

