-- ==== Sys2Proof/Machine/State.lean ====
section
/-! DEFINITION. The state of one SLUGID core and of the two agents outside it, as plain data.
The architectural state is the four elements of spec/10_state.md R21. Beside them stand the wait of an accepted
generator command, which the spec gives as `ent_req` and "in flight" (R33, R35, R141), and what the two outside agents
of spec/00_scope.md R13 do: the values they put on the input ports, and the answers the entropy source still owes. -/

namespace Sys2Proof.Machine

/-- The three synchronous exceptions (spec/60_exceptions.md R120). None carries a payload (R125). -/
inductive Exc where
  /-- Raised by `DECODE` when `len != 22` (R121). -/
  | invalidLength
  /-- Raised by `DECODE` when `len == 22` and some lane is outside the alphabet (R122). -/
  | invalidCharacter
  /-- Raised by `RANDV4` and `RANDNICE` when the draw answers `fail` (R123). -/
  | entropyFailure
  deriving DecidableEq, Repr

/-- The result of a command: one of `slug(chr)`, `uuid(u)`, `error(kind)` (R25, R37). -/
inductive Result where
  | slug (chr : Slug)
  | uuid (u : UUID)
  | error (kind : Exc)
  deriving DecidableEq, Repr

/-- One answer of the entropy source, `ok(r)` or `fail` (R66, R100). -/
inductive Draw where
  | ok (r : UUID)
  | fail
  deriving DecidableEq, Repr

/-- The two generator commands, as an accepted one is remembered while it waits for its draw (R35, R37). -/
inductive Generator where
  | randv4
  | randnice
  deriving DecidableEq, Repr

/-- The values on the input ports at one step (R32 to R35): what the host and the entropy source do in it.
`clk` is the step itself (R14, D2). -/
structure Inputs where
  /-- `rst`: the host applies reset (R32, R39). -/
  rst : Bool
  /-- `cmd_valid`: the host presents a command (R33). -/
  cmdValid : Bool
  /-- `cmd_op` (R33, R52). -/
  cmdOp : BitVec 2
  /-- `cmd_len` (R33, R53). -/
  cmdLen : BitVec 8
  /-- `cmd_data` (R33, R54, R55). -/
  cmdData : Bus
  /-- `rsp_ready`: the host takes the response (R34). -/
  rspReady : Bool
  /-- `ent_valid`: the source answers with data (R35). -/
  entValid : Bool
  /-- `ent_fail`: the source answers with failure (R35). -/
  entFail : Bool
  /-- `ent_data`: the drawn bits (R35). -/
  entData : UUID
  deriving DecidableEq, Repr

/-- Nothing presented, nothing taken, no reset, no answer (R147 (d) where no command is in flight). -/
def Inputs.quiet : Inputs where
  rst := false
  cmdValid := false
  cmdOp := 0#2
  cmdLen := 0#8
  cmdData := 0#176
  rspReady := false
  entValid := false
  entFail := false
  entData := 0#128

/-- The values on the output ports (R32 to R35). -/
structure Outputs where
  /-- `halted` (R32). -/
  halted : Bool
  /-- `cmd_ready` (R33). -/
  cmdReady : Bool
  /-- `rsp_valid` (R34). -/
  rspValid : Bool
  /-- `rsp_status` (R34). -/
  rspStatus : BitVec 2
  /-- `rsp_data` (R34). -/
  rspData : Bus
  /-- `ent_req` (R35). -/
  entReq : Bool
  deriving DecidableEq, Repr

/-- The state of one core and its surroundings. -/
structure State where
  /-- `HALT`: 1 after an entropy failure, until reset (R22). -/
  halt : Bool
  /-- `RSP_VALID`: 1 while a response waits to be taken (R23). -/
  rspValid : Bool
  /-- `RSP_STATUS`: the status code of the waiting response (R24). -/
  rspStatus : BitVec 2
  /-- `RSP_DATA`: the result of the waiting response (R25). -/
  rspData : Bus
  /-- The accepted generator command that waits for its draw: `ent_req` (R35), "in flight" (R33, R141),
  "stuck on entropy" (R147 (b)). -/
  inFlight : Option Generator
  /-- How many requests a reset abandoned whose answer has not come yet: those answers are discarded (R141). -/
  owed : Nat
  /-- The outside agents' moves: the input port values at this step and the ones to come; after the last, the ports
  are quiet (R13, R150). -/
  moves : List Inputs
  /-- The MODEL's own: how many occasions for an unspecified value have passed; free values are taken at it (U1, U2). -/
  occasion : Nat
  deriving DecidableEq, Repr

/-- Why a step stops with a fault. There is no constructor: no step of this block stops so. The one fault the spec
describes is the bit `HALT` (R22, R129), which is state and which a reset clears. -/
inductive Fault where
  deriving DecidableEq, Repr

/-- Why a step is refused. -/
inductive Refusal where
  /-- Raised by `exec` for an instruction with no meaning yet (none here). Safe: the run ends. -/
  | notModelled (mnemonic : String)
  /-- Raised by `transition` when the entropy source answers and no request of its own is unanswered: the spec says
  to refuse it, "the source's duty; the model gives the source no such move" (U7, R146 (1), R150). Safe: the run ends. -/
  | answerWithoutRequest
  deriving DecidableEq, Repr

/-- The state right after reset (R36, R140, R151): `HALT = 0`, `RSP_VALID = 0`, nothing in flight, no late answer
pending. `RSP_STATUS` and `RSP_DATA` are unspecified there; 0 is the model's (notes/assumptions/1.md). No move is
given: what is presented to the block comes from outside (notes/assumptions/7.md). -/
def State.reset : State where
  halt := false
  rspValid := false
  rspStatus := 0#2
  rspData := 0#176
  inFlight := none
  owed := 0
  moves := []
  occasion := 0

end Sys2Proof.Machine
end

