-- ==== Sys2Proof/Machine/Flags.lean ====
section
/-! DEFINITION. What a command writes into the status elements: the status code (spec/10_state.md R24,
spec/30_encoding.md R58), the data layout (R59 to R61) and whether `HALT` is set (R22). -/

namespace Sys2Proof.Machine

/-- The code of an exception (R58, R120). -/
def Exc.code : Exc → BitVec 2
  | .invalidLength => 1#2
  | .invalidCharacter => 2#2
  | .entropyFailure => 3#2

/-- The status code of a result: 0 is `OK` (R58). -/
def Result.status : Result → BitVec 2
  | .slug _ => 0#2
  | .uuid _ => 0#2
  | .error e => e.code

/-- The data layout of a result, the unspecified bits taken from `free` (R59 to R61): a slug fills all 22 lanes, a
UUID `data[127:0]`, and an error leaves all 176 bits unspecified. -/
def Result.data (free : Bus) : Result → Bus
  | .slug chr => ofLanes chr
  | .uuid u => free.extractLsb' 128 48 ++ u
  | .error _ => free

/-- Whether a result sets `HALT`: "`HALT <- 1`" on `EntropyFailure` and on nothing else (R22, R37). -/
def Result.halts : Result → Bool
  | .error .entropyFailure => true
  | .error .invalidLength => false
  | .error .invalidCharacter => false
  | .slug _ => false
  | .uuid _ => false

end Sys2Proof.Machine
end

