-- ==== Sys2Proof/Machine/Operands.lean ====
section
/-! DEFINITION. What a step reads from outside: the input ports of this step, the command word on them, and the
answer of the entropy source (spec/10_state.md R33 to R35, spec/30_encoding.md R50, R66). -/

namespace Sys2Proof.Machine

/-- The command word on the command ports (R50, R33). -/
def Inputs.cw (p : Inputs) : CommandWord := commandWord p.cmdData p.cmdLen p.cmdOp

/-- The answer on the entropy ports (R66): "When both `ent_valid` and `ent_fail` are 1 the answer is `fail`. When
neither is 1 there is no answer yet." The drawn bits are used with no permutation. -/
def Inputs.answer (p : Inputs) : Option Draw :=
  if p.entFail then some .fail
  else if p.entValid then some (.ok p.entData)
  else none

/-- The input ports at this step; quiet once the outside agents have no further move. -/
def State.now (s : State) : Inputs := s.moves.headD .quiet

/-- The answer to this core's own, unabandoned request at this step: while the source still owes an answer to an
abandoned request, what arrives is that one, and is not used (R141). -/
def State.draw (s : State) : Option Draw :=
  if s.owed = 0 then s.now.answer else none

end Sys2Proof.Machine
end

