-- ==== Sys2Proof/Machine/Ops.lean ====
section
/-! DEFINITION. The named operations on the state: writing a response, raising an exception, taking a response, reset,
accepting a command, waiting for entropy, and the ports the core drives (spec/10_state.md R22 to R39). -/

namespace Sys2Proof.Machine

/-- `respond(r)` (R37): the status, the data and `RSP_VALID` change together; `HALT` is set by an entropy failure and
by nothing else; a waiting command is answered. -/
def State.respond (s : State) (r : Result) : State :=
  { s with
    halt := s.halt || r.halts
    rspValid := true
    rspStatus := r.status
    rspData := r.data (Config.freeRspData s.occasion)
    inFlight := none
    occasion := s.occasion + 1 }

/-- Taking an exception (spec/60_exceptions.md R127): "the command ends; the response register is written with the
exception's code; for `EntropyFailure`, `HALT` is also set. Nothing is saved". There is no return instruction (R128):
after a decode error the host's `take` leads back to the idle state, and after `EntropyFailure` only reset does. -/
def State.raise (s : State) (e : Exc) : State := s.respond (.error e)

/-- Step `take` (R38): "`RSP_VALID <- 0`. `HALT`, `RSP_STATUS` and `RSP_DATA` are not changed". -/
def State.take (s : State) : State := { s with rspValid := false }

/-- Step `reset` (R39, R36, R140, R141): from any state; a response not taken is lost, a command in flight is
abandoned, and the answer to its request is still owed; `RSP_STATUS` and `RSP_DATA` are unspecified after it. -/
def State.applyReset (s : State) : State :=
  { s with
    halt := false
    rspValid := false
    rspStatus := Config.freeRspStatus s.occasion
    rspData := Config.freeRspData s.occasion
    inFlight := none
    owed := s.owed + (if s.inFlight.isSome then 1 else 0)
    occasion := s.occasion + 1 }

/-- Whether the state allows a command to be accepted: "(HALT == 0) and (RSP_VALID == 0) and no command is in flight"
(R33, R37). -/
def State.ready (s : State) : Bool := !s.halt && !s.rspValid && s.inFlight.isNone

/-- Run an accepted command's effect, or accept nothing: a command presented while the core is not ready is "not
accepted" and changes nothing (R37, R129; U9; spec/95_test_vectors.md V9). -/
def State.whenReady (s : State) (effect : State → State) : Host.Outcome State Fault Refusal :=
  .next (if s.ready then effect s else s)

/-- The wait of an accepted generator command begins or goes on: `ent_req` stays 1 and nothing else changes (R35, V9). -/
def State.suspend (s : State) (g : Generator) : State := { s with inFlight := some g }

/-- A generator command asks for its draw: answered, it goes on with the answer; not answered, it waits, `ent_req`
stays 1 and no response is written (R35, R37, R147 (b)). -/
def State.await (s : State) (g : Generator) (use : State → Draw → State) : State :=
  match s.draw with
  | none => s.suspend g
  | some a => use s a

/-- The end of a step: the outside agents' next move comes up, and an answer that came is no longer owed (R141). -/
def State.advance (s : State) : State :=
  { s with
    owed := s.owed - (if s.now.answer.isSome then 1 else 0)
    moves := s.moves.tail }

/-- Whether a generator command is accepted at this step: `cmd_valid` and `cmd_ready` are both 1 and the opcode is
`RANDV4`'s or `RANDNICE`'s (R33, R52). -/
def State.acceptsGenerator (s : State) : Bool :=
  !s.now.rst && s.ready && s.now.cmdValid && (s.now.cmdOp == 2#2 || s.now.cmdOp == 3#2)

/-- The output ports (R32 to R35); "While `rst = 1`, `cmd_ready = 0`, `rsp_valid = 0`, `ent_req = 0`, `halted = 0`"
(R140). `ent_req` is "1 while an accepted `RANDV4` or `RANDNICE` waits for its draw" (R35): from the step that accepts the
command to the step at which its answer comes, both included, be they the same one. So every accepted generator command
makes its one request, and no answer is used while `ent_req = 0` (R146 (1), U7). That the accepting step is included is
DEDUCED (notes/assumptions/18.md). -/
def State.outputs (s : State) : Outputs where
  halted := !s.now.rst && s.halt
  cmdReady := !s.now.rst && s.ready
  rspValid := !s.now.rst && s.rspValid
  rspStatus := s.rspStatus
  rspData := s.rspData
  entReq := !s.now.rst && (s.inFlight.isSome || s.acceptsGenerator)

/-- The response word `RW = rsp_data ∥ rsp_status` (R57). -/
def State.rw (s : State) : ResponseWord := s.rspData ++ s.rspStatus

/-- An answer that no request waits for: no late one is owed, and `ent_req = 0` (U7, R146 (1)). The step asks this only
where no reset is applied. -/
def State.strayAnswer (s : State) : Bool :=
  s.now.answer.isSome && s.owed == 0 && !s.outputs.entReq

end Sys2Proof.Machine
end

