-- ==== Sys2Proof/Machine/Codec.lean ====
section
/-! DEFINITION. The codec (spec/41_codec.md): `PACK`, `UNPACK`, and the meanings of `ENCODE` and `DECODE`. -/

namespace Sys2Proof.Machine

/-- `PACK` (R80): the value with 4 zero bits appended, cut into 22 groups, most significant group first:
`sym[i] := P[131-6i : 126-6i]`. -/
def pack (u : UUID) : SymVec :=
  Vector.ofFn fun i : Fin 22 => (u ++ 0#4).extractLsb' (126 - 6 * i.val) 6

/-- `UNPACK` (R84): the 22 symbols concatenated, most significant first; the trailing 4 bits are dropped, not checked
(R86). -/
def unpack (sym : SymVec) : UUID := (concatBE 132 sym.toList).extractLsb' 4 128

/-- The slug of a value: `chr[i] := S2C(sym[i])` over `PACK(u)`, lane by lane (R90, R76). -/
def slugOf (u : UUID) : Slug := Vector.ofFn fun i : Fin 22 => s2c (pack u)[i.val]

/-- The 22 symbols of 22 characters, lane by lane, or nothing if any lane is outside the alphabet (R91, R122, R76). -/
def symbolsOf (chr : Slug) : Option SymVec :=
  if ∀ i : Fin 22, (c2s chr[i.val]).isSome then
    some (Vector.ofFn fun i : Fin 22 => (c2s chr[i.val]).getD 0#6)
  else none

/-- The end of an accepted `ENCODE` (R90). -/
def State.encodeValue (s : State) (u : UUID) : State := s.respond (.slug (slugOf u))

/-- The end of an accepted `DECODE` (R91): the length is tested first, and when it fails the characters are not
examined (R126). -/
def State.decodeString (s : State) (len : BitVec 8) (chr : Slug) : State :=
  if len ≠ 22#8 then s.raise .invalidLength
  else
    match symbolsOf chr with
    | none => s.raise .invalidCharacter
    | some sym => s.respond (.uuid (unpack sym))

/-- `ENCODE` (R90): `len` and `data[175:128]` are ignored (R56). -/
def execEncode (_len : BitVec 8) (_hi : BitVec 48) (u : UUID) (s : State) : Host.Outcome State Fault Refusal :=
  s.whenReady fun s => s.encodeValue u

/-- `DECODE` (R91). -/
def execDecode (len : BitVec 8) (chr : Slug) (s : State) : Host.Outcome State Fault Refusal :=
  s.whenReady fun s => s.decodeString len chr

end Sys2Proof.Machine
end

