-- ==== Sys2Proof/Machine/Generator.lean ====
section
/-! DEFINITION. The generator (spec/42_generator.md): `STAMP`, `NICE`, and the meanings of `RANDV4` and `RANDNICE`. -/

namespace Sys2Proof.Machine

/-- `STAMP` (R101): `u[79:76] := 0b0100`, `u[63:62] := 0b10`, the other 122 bits those of `r`. -/
def stamp (r : UUID) : UUID :=
  r.extractLsb' 80 48 ++ 0b0100#4 ++ r.extractLsb' 64 12 ++ 0b10#2 ++ r.extractLsb' 0 62

/-- `NICE` (R103): `v[127] := 0`. -/
def nice (u : UUID) : UUID := 0#1 ++ u.extractLsb' 0 127

/-- What a generator makes of the drawn bits: `STAMP(r)` (R105) or `NICE(STAMP(r))` (R106). -/
def Generator.shape : Generator → UUID → UUID
  | .randv4, r => stamp r
  | .randnice, r => nice (stamp r)

/-- The end of a generator command, its answer given (R105, R106): no retry and no substitute bits (R111, R123). -/
def State.finish (g : Generator) (s : State) : Draw → State
  | .fail => s.raise .entropyFailure
  | .ok r => s.respond (.slug (slugOf (g.shape r)))

/-- A generator command from its acceptance on, or from any later moment of its wait (R37: "the step includes the wait
for the entropy answer"). -/
def State.generate (s : State) (g : Generator) : State := s.await g (State.finish g)

/-- `RANDV4` (R105): `len` and `data` are ignored (R56). -/
def execRandv4 (_len : BitVec 8) (_data : Bus) (s : State) : Host.Outcome State Fault Refusal :=
  s.whenReady fun s => s.generate .randv4

/-- `RANDNICE` (R106): `len` and `data` are ignored (R56). -/
def execRandnice (_len : BitVec 8) (_data : Bus) (s : State) : Host.Outcome State Fault Refusal :=
  s.whenReady fun s => s.generate .randnice

end Sys2Proof.Machine
end

