-- ==== Sys2Proof/Machine/Dispatch.lean ====
section
/-! DEFINITION. The meaning of a command: one arm per constructor of Instr. -/

namespace Sys2Proof.Machine

def exec (i : Instr) (s : State) : Host.Outcome State Fault Refusal :=
  match i with
  | .encode len hi uuid => Sys2Proof.Machine.execEncode len hi uuid s
  | .decode len chr => Sys2Proof.Machine.execDecode len chr s
  | .randv4 len data => Sys2Proof.Machine.execRandv4 len data s
  | .randnice len data => Sys2Proof.Machine.execRandnice len data s

end Sys2Proof.Machine
end

