-- ==== Sys2Proof/Machine/Transition.lean ====
section
/-! DEFINITION. One step: "A model of the block has exactly these three kinds of step: `execute`, `take` and `reset`"
(spec/10_state.md section 6, R37 to R39), and the wait in which nothing happens (spec/70_reset_and_hazards.md R147). -/

namespace Sys2Proof.Machine

/-- The end of a step, carried under its outcome. -/
def advanceOutcome : Host.Outcome State Fault Refusal → Host.Outcome State Fault Refusal
  | .next s => .next s.advance
  | .fault r => .fault r
  | .refused r => .refused r

/-- What the core does at this step when no reset is applied: a waiting response is taken or waits (R38, R147 (c)); a
command in flight goes on with its answer or waits (R37, R147 (b)); a presented command is executed, or not accepted
while the core is halted (R37, R129); with none presented nothing happens (R147 (d)). -/
def act (s : State) : Host.Outcome State Fault Refusal :=
  if s.rspValid then .next (if s.now.rspReady then s.take else s)
  else
    match s.inFlight with
    | some g => .next (s.generate g)
    | none => if s.now.cmdValid then exec (decodeWord s.now.cw) s else .next s

/-- One step of the core: reset in every state (R39); an answer without a request is refused (U7); else the core acts. -/
def transition (s : State) : Host.Outcome State Fault Refusal :=
  if s.now.rst then .next s.applyReset.advance
  else if s.strayAnswer then .refused .answerWithoutRequest
  else advanceOutcome (act s)

/-- The input ports with a command presented on them and no reset (R33, R50). -/
def Inputs.present (p : Inputs) (cw : CommandWord) : Inputs :=
  { p with
    rst := false
    cmdValid := true
    cmdOp := CommandWord.op cw
    cmdLen := CommandWord.len cw
    cmdData := CommandWord.data cw }

/-- The state with a command presented at this step; nothing else changes. -/
def State.presenting (s : State) (cw : CommandWord) : State :=
  { s with moves := s.now.present cw :: s.moves.tail }

end Sys2Proof.Machine
end

