-- ==== Sys2Proof/Machine/Step.lean ====
section
/-! DEFINITION. The step the host runs, and how a command is placed where the step reads its next one. -/

namespace Sys2Proof.Machine

/-- One step (spec/10_state.md R37 to R39; `transition` says it). -/
def step (s : State) : Host.Outcome State Fault Refusal := transition s

/-- `s` with the command of table word `w` presented on the command ports at this step (R33, R50); the other ports and
the core's own state are as they were (notes/assumptions/7.md). -/
def State.withFetchWord (s : State) (nbits w : Nat) : State :=
  s.presenting (BitVec.ofNat 186 (w % 2 ^ nbits))

end Sys2Proof.Machine
end

