-- ==== Sys2Proof/Safety.lean ====
section
/-! DEFINITION. The terms in which claims speak: the invariant, the ways to stop making progress (R147), the good end of
a run (R149), and what is accepted and taken at a step (R33, R34). -/

namespace Sys2Proof.Machine

/-- A syntactically valid slug: "a string of exactly 22 characters, every one in the alphabet" (R16). -/
abbrev validSlug (chr : Slug) : Prop := ∀ i : Fin 22, chr[i.val] ∈ alpha

/-- A canonical symbol vector: the low 4 bits of the last symbol are zero (R16, R88). -/
abbrev canonical (sym : SymVec) : Prop := sym[21].extractLsb' 0 4 = 0#4

/-- The slug on the response bus (R59). -/
def State.slugOut (s : State) : Slug := lanes s.rspData

/-- The UUID on the response bus (R60). -/
def State.uuidOut (s : State) : UUID := s.rspData.extractLsb' 0 128

/-- What every reachable state satisfies. A command in flight has written no response and has halted nothing (R33, R37);
a waiting response has status `ENTROPY_FAILURE` exactly when the core is halted (R22, R37, R129, V9). -/
abbrev State.Inv (s : State) : Prop :=
  (s.inFlight.isSome = true → s.halt = false ∧ s.rspValid = false) ∧
  (s.rspValid = true → (s.halt = true ↔ s.rspStatus = 3#2))

/-- R147 (a), the fault: `HALT = 1`. -/
abbrev State.halted (s : State) : Prop := s.halt = true

/-- R147 (b): an accepted generator command whose request is not answered. -/
abbrev State.stuckOnEntropy (s : State) : Prop := s.inFlight.isSome = true ∧ s.draw = none

/-- R147 (c): a response not taken. -/
abbrev State.stuckOnHost (s : State) : Prop := s.rspValid = true ∧ s.now.rspReady = false

/-- R147 (d), idle: `HALT = 0`, `RSP_VALID = 0`, no command presented and none in flight. -/
abbrev State.idle (s : State) : Prop := s.ready = true ∧ s.now.cmdValid = false

/-- The command accepted at this step: "at the moment `cmd_valid` and `cmd_ready` are both 1" (R33). -/
def State.accepted (s : State) : Option Instr :=
  if s.outputs.cmdReady && s.now.cmdValid then some (decodeWord s.now.cw) else none

/-- The response taken at this step: "at the moment `rsp_valid` and `rsp_ready` are both 1" (R34). -/
def State.taken (s : State) : Option ResponseWord :=
  if s.outputs.rspValid && s.now.rspReady then some s.rw else none

/-- The answer to this core's own request at this step: one stands, and what comes is no late answer (R35, R66, R141). -/
def State.requestAnswered (s : State) : Option Draw := if s.outputs.entReq then s.draw else none

/-- The input ports at the step after this one. -/
def State.upcoming (s : State) : Inputs := s.moves.tail.headD .quiet

/-- Whether the host still presents at the next step the command it presents at this one (R144: it "holds `cmd_op`,
`cmd_len` and `cmd_data` unchanged and does not withdraw `cmd_valid`"). -/
def State.held (s : State) : Bool := s.upcoming.cmdValid && s.upcoming.cw == s.now.cw

/-- The command whose presentation ends at this step: it is accepted, or the host withdraws or changes it although it is
not (R33, R144, R149). That a withdrawn or changed command counts as one the host presented is DEDUCED
(notes/assumptions/19.md). -/
def State.presented (s : State) : Option Instr :=
  if s.now.cmdValid && (s.accepted.isSome || !s.held) then some (decodeWord s.now.cw) else none

/-- How many accepted commands have no response taken yet. -/
def State.pending (s : State) : Nat :=
  s.rspValid.toNat + s.inFlight.isSome.toNat

/-- The commands accepted in the first `k` steps, in order. -/
def State.acceptedIn : Nat → State → List Instr
  | 0, _ => []
  | k + 1, s =>
    s.accepted.toList ++
      match step s with
      | .next t => State.acceptedIn k t
      | .fault _ => []
      | .refused _ => []

/-- The responses taken in the first `k` steps, in order: the observable result of a run (R149). -/
def State.takenIn : Nat → State → List ResponseWord
  | 0, _ => []
  | k + 1, s =>
    s.taken.toList ++
      match step s with
      | .next t => State.takenIn k t
      | .fault _ => []
      | .refused _ => []

/-- The answers to the core's own requests in the first `k` steps, in order. -/
def State.answersIn : Nat → State → List Draw
  | 0, _ => []
  | k + 1, s =>
    s.requestAnswered.toList ++
      match step s with
      | .next t => State.answersIn k t
      | .fault _ => []
      | .refused _ => []

/-- Whether a command is one that draws (R52, R100). -/
def isGenerator (i : Instr) : Bool := i.op == 2#2 || i.op == 3#2

/-- The commands whose presentation ends in the first `k` steps, accepted or not, in order. -/
def State.presentedIn : Nat → State → List Instr
  | 0, _ => []
  | k + 1, s =>
    s.presented.toList ++
      match step s with
      | .next t => State.presentedIn k t
      | .fault _ => []
      | .refused _ => []

/-- The run of `k` steps from `s`, the state a reset left, has ended well in `t` (R149): no reset in between; the host
presents no further command; every command it presented was accepted; `HALT = 0`, `RSP_VALID = 0` and nothing is in
flight, so that every response has been taken (without reset a response goes by a take only, R23). "No further command"
is asked of ALL the host's coming moves, so that a command presented after a LATER reset, which R149 would give to that
reset's own run, counts against this one: the spec leaves that open, and it is the model's choice (DESIGN CHOICE,
notes/assumptions/19.md). -/
def State.endedWell (k : Nat) (s t : State) : Prop :=
  s.ready = true ∧ (∀ p ∈ s.moves.take k, p.rst = false) ∧ Sys2Proof.core.run k s = .next t ∧
  t.ready = true ∧ (∀ p ∈ t.moves, p.cmdValid = false) ∧ State.presentedIn k s = State.acceptedIn k s

/-- Which response words answer a command (R57, with R90, R91, R105, R106 and R120), whatever the draw. -/
def answeredBy : Instr → ResponseWord → Prop
  | .encode _ _ u, w => w = ofLanes (slugOf u) ++ 0#2
  | .decode len chr, w =>
    (len ≠ 22#8 ∧ w.extractLsb' 0 2 = 1#2) ∨
    (len = 22#8 ∧ symbolsOf chr = none ∧ w.extractLsb' 0 2 = 2#2) ∨
    (len = 22#8 ∧ ∃ sym, symbolsOf chr = some sym ∧ w.extractLsb' 0 2 = 0#2 ∧ w.extractLsb' 2 128 = unpack sym)
  | .randv4 _ _, w => w.extractLsb' 0 2 = 3#2 ∨ ∃ r, w = ofLanes (slugOf (stamp r)) ++ 0#2
  | .randnice _ _, w => w.extractLsb' 0 2 = 3#2 ∨ ∃ r, w = ofLanes (slugOf (nice (stamp r))) ++ 0#2

/-- The answers still to come are no more than those owed to abandoned requests, so that each of them is a late one
(R141, R146 (1); the count is the model's, notes/assumptions/6.md). -/
abbrev State.onlyLateAnswers (s : State) : Prop := s.moves.countP (fun p => p.answer.isSome) ≤ s.owed

/-- The state with no answer on the entropy ports at this step; nothing else changes. -/
def State.withoutAnswer (s : State) : State :=
  { s with moves := { s.now with entValid := false, entFail := false } :: s.moves.tail }

end Sys2Proof.Machine
end

