-- ==== Sys2Proof/Certificates/Slice0/Obligations.lean ====
section
/-! DEFINITION. The statements for the provers. Each docstring names the rule of spec/ it formalises; where the rule is
one the spec marks as its own inference ("[derived: ...]") or decision ("[decision: ...]"), or a clause rests on an entry
of the assumption log, the docstring says so. -/

open Sys2Proof Sys2Proof.Machine

/-! ## The command word -/

/-- spec/30_encoding.md R50 to R52, R54, R55 (decision D4): no bit of a command is lost in its word. -/
def Obligations.DecodeOfEncodeIsTheCommand : Prop :=
  ∀ i : Instr, i.wellFormed = true → decodeWord (encodeWord i) = i

/-- spec/30_encoding.md R50, R51, R62 (decision D4): every one of the 2^186 words is the word of a legal command. -/
def Obligations.EveryWordIsItsCommandsWord : Prop :=
  ∀ cw : CommandWord, encodeWord (decodeWord cw) = cw ∧ (decodeWord cw).wellFormed = true ∧
    (decodeWord cw).op = cw.extractLsb' 0 2

/-- A sanity check against spec/95_test_vectors.md V8, S1 and P1: words written there decode to their commands. -/
def Obligations.SpecWordsDecodeAsListed : Prop :=
  decodeWord 0x00000000000000000000000000000000000000000000400#186 = assembleEncode 1#128 ∧
  decodeWord 0x0000000000001e588830320c527de5d0dfa88f6cec62400#186
    = assembleEncode 0x796220c0c83149f797437ea23db3b189#128 ∧
  decodeWord 0x10400000000000000000000000000000000000000000005#186 = assembleDecode [0x41#8] ∧
  decodeWord 0x105050505050505050505050505050505050505050507fd#186 = assembleDecode (List.replicate 300 0x41#8) ∧
  decodeWord 0x00000000000000000000000000000000000000000000002#186 = assembleRandv4 ∧
  decodeWord 0x3fffffffffffffffffffffffffffffffffffffffffffffe#186
    = .randv4 (BitVec.allOnes 8) (BitVec.allOnes 176) ∧
  decodeWord 0x00000000000000000000000000000000000000000000003#186 = assembleRandnice

/-- spec/30_encoding.md R56 (decision D22): two presented words that differ in ignored bits only give the same step, the
same response and the same next state: all of `len` and `data` for the generators, `len` and `data[175:128]` for
`ENCODE`, every lane for a `DECODE` whose `len` is not 22. No value of an ignored field is illegal, and the assembler
writes ignored bits as zero (R64). -/
def Obligations.IgnoredBitsHaveNoEffect : Prop :=
  (∀ (s : State) (cw cw' : CommandWord),
    CommandWord.op cw = CommandWord.op cw' →
    (CommandWord.op cw = 0#2 → (CommandWord.data cw).extractLsb' 0 128 = (CommandWord.data cw').extractLsb' 0 128) →
    (CommandWord.op cw = 1#2 → CommandWord.len cw = CommandWord.len cw' ∧
      (CommandWord.len cw = 22#8 → CommandWord.data cw = CommandWord.data cw')) →
    step (s.presenting cw) = step (s.presenting cw')) ∧
  (∀ cw : CommandWord, (decodeWord cw).wellFormed = true) ∧
  (∀ u : UUID, (assembleEncode u).assembled = true) ∧
  (∀ str : List Code, (assembleDecode str).assembled = true) ∧
  assembleRandv4.assembled = true ∧ assembleRandnice.assembled = true

/-! ## The alphabet -/

/-- spec/40_alphabet.md R71: `S2C` is the table's entry, and in closed form. -/
def Obligations.SymbolToCharacterClosedForm : Prop :=
  ∀ v : Symbol, alpha[v.toNat]? = some (s2c v) ∧ s2c v =
    if v.toNat ≤ 25 then BitVec.ofNat 8 (0x41 + v.toNat)
    else if v.toNat ≤ 51 then BitVec.ofNat 8 (0x61 + (v.toNat - 26))
    else if v.toNat ≤ 61 then BitVec.ofNat 8 (0x30 + (v.toNat - 52))
    else if v.toNat = 62 then 0x2D#8
    else 0x5F#8

/-- spec/40_alphabet.md R72: `C2S` is the index at which the table holds the code, and in closed form; invalid on the
other 192 codes. -/
def Obligations.CharacterToSymbolClosedForm : Prop :=
  ∀ c : Code, (∀ v : Symbol, c2s c = some v ↔ alpha[v.toNat]? = some c) ∧ c2s c =
    if 0x41 ≤ c.toNat ∧ c.toNat ≤ 0x5A then some (BitVec.ofNat 6 (c.toNat - 0x41))
    else if 0x61 ≤ c.toNat ∧ c.toNat ≤ 0x7A then some (BitVec.ofNat 6 (c.toNat - 0x61 + 26))
    else if 0x30 ≤ c.toNat ∧ c.toNat ≤ 0x39 then some (BitVec.ofNat 6 (c.toNat - 0x30 + 52))
    else if c.toNat = 0x2D then some 62#6
    else if c.toNat = 0x5F then some 63#6
    else none

/-- spec/40_alphabet.md R73 (the spec's inference, from R70 to R72): the two lookups are inverse on the alphabet, and
the 64 codes of the table are pairwise different. -/
def Obligations.AlphabetIsABijection : Prop :=
  alpha.length = 64 ∧ alpha.Nodup ∧
  (∀ v : Symbol, s2c v ∈ alpha ∧ c2s (s2c v) = some v) ∧
  (∀ c : Code, (c ∈ alpha → ∃ v : Symbol, c2s c = some v ∧ s2c v = c) ∧ (c ∉ alpha → c2s c = none))

/-! ## PACK and UNPACK -/

/-- spec/41_codec.md R81 (the spec's inference, from R80 and R8): `PACK` symbol by symbol, and document bit `k` is bit
`5 - (k mod 6)` of `sym[k div 6]` (with R45 for the four pad bits 128 to 131). -/
def Obligations.PackSymbolBySymbol : Prop :=
  ∀ u : UUID,
    (∀ (i : Nat) (hi : i < 21), (pack u)[i] = ((u >>> (122 - 6 * i)) &&& 63#128).setWidth 6) ∧
    (pack u)[21] = ((u &&& 3#128) <<< 4).setWidth 6 ∧
    (∀ (k : Nat) (hk : k < 132), ((pack u)[k / 6]'(by omega)).getLsbD (5 - k % 6) = ubit u k)

/-- spec/20_memory.md R45: byte `j`, hexadecimal digit `d` and symbol `i` are cut from the one sequence of document bits,
which is 0 from bit 128 on; and the sequence is all there is to a value. -/
def Obligations.EveryWidthIsCutFromOneSequence : Prop :=
  (∀ u : UUID,
    (∀ j b : Nat, j < 16 → b < 8 → (byte u j).getMsbD b = ubit u (8 * j + b)) ∧
    (∀ d b : Nat, d < 32 → b < 4 → (hexDigit u d).getMsbD b = ubit u (4 * d + b)) ∧
    (∀ (i : Nat) (hi : i < 22) (b : Nat), b < 6 → (pack u)[i].getMsbD b = ubit u (6 * i + b)) ∧
    (∀ k : Nat, 128 ≤ k → ubit u k = false)) ∧
  (∀ u v : UUID, (∀ k : Nat, k < 128 → ubit u k = ubit v k) → u = v)

/-- spec/41_codec.md R82 (the spec's inference, from R80 and R9): `PACK` by bytes. -/
def Obligations.PackByBytes : Prop :=
  ∀ u : UUID,
    (∀ (g : Nat) (hg : g < 5),
      (pack u)[4 * g] = (byte u (3 * g) >>> 2).setWidth 6 ∧
      (pack u)[4 * g + 1] = (((byte u (3 * g) &&& 0x03#8) <<< 4) ||| (byte u (3 * g + 1) >>> 4)).setWidth 6 ∧
      (pack u)[4 * g + 2] = (((byte u (3 * g + 1) &&& 0x0F#8) <<< 2) ||| (byte u (3 * g + 2) >>> 6)).setWidth 6 ∧
      (pack u)[4 * g + 3] = (byte u (3 * g + 2) &&& 0x3F#8).setWidth 6) ∧
    (pack u)[20] = (byte u 15 >>> 2).setWidth 6 ∧
    (pack u)[21] = ((byte u 15 &&& 0x03#8) <<< 4).setWidth 6

/-- spec/41_codec.md R85 (the spec's inference, from R84 and R9): `UNPACK` by bytes, and as arithmetic. -/
def Obligations.UnpackByBytes : Prop :=
  ∀ sym : SymVec,
    (∀ (g : Nat) (hg : g < 5),
      byte (unpack sym) (3 * g) = (sym[4 * g].setWidth 8 <<< 2) ||| (sym[4 * g + 1].setWidth 8 >>> 4) ∧
      byte (unpack sym) (3 * g + 1) =
        ((sym[4 * g + 1].setWidth 8 &&& 0x0F#8) <<< 4) ||| (sym[4 * g + 2].setWidth 8 >>> 2) ∧
      byte (unpack sym) (3 * g + 2) = ((sym[4 * g + 2].setWidth 8 &&& 0x03#8) <<< 6) ||| sym[4 * g + 3].setWidth 8) ∧
    byte (unpack sym) 15 = (sym[20].setWidth 8 <<< 2) ||| (sym[21].setWidth 8 >>> 4) ∧
    (unpack sym).toNat = (((List.finRange 22).map fun i => sym[i.val].toNat * 2 ^ (126 - 6 * i.val)).sum) / 2 ^ 4

/-- spec/41_codec.md R83: the encoder's invariant, for `PACK`, and for every output of `ENCODE`. -/
def Obligations.EncoderTrailingBitsAreZero : Prop :=
  ∀ u : UUID,
    ((pack u)[21]).extractLsb' 0 4 = 0#4 ∧
    (u.extractLsb' 0 2 = 0#2 → (pack u)[21] = 0#6 ∧ s2c (pack u)[21] = 0x41#8) ∧
    (u.extractLsb' 0 2 = 1#2 → (pack u)[21] = 16#6 ∧ s2c (pack u)[21] = 0x51#8) ∧
    (u.extractLsb' 0 2 = 2#2 → (pack u)[21] = 32#6 ∧ s2c (pack u)[21] = 0x67#8) ∧
    (u.extractLsb' 0 2 = 3#2 → (pack u)[21] = 48#6 ∧ s2c (pack u)[21] = 0x77#8) ∧
    (∀ (len : BitVec 8) (hi : BitVec 48) (s : State), s.ready = true →
      ∃ t, exec (.encode len hi u) s = .next t ∧ (t.slugOut)[21] ∈ [0x41#8, 0x51#8, 0x67#8, 0x77#8])

/-- spec/41_codec.md R87: the first round-trip law, for the datapath, and for the instructions: `DECODE` of the slug that
`ENCODE` answers, after the host has taken it, answers the value. -/
def Obligations.DecodeOfEncodeIsTheValue : Prop :=
  (∀ u : UUID, unpack (pack u) = u) ∧
  (∀ (len : BitVec 8) (hi : BitVec 48) (u : UUID) (s : State), s.ready = true →
    ∃ t t', exec (.encode len hi u) s = .next t ∧ t.rspStatus = 0#2 ∧
      exec (.decode 22#8 t.slugOut) t.take = .next t' ∧ t'.rspStatus = 0#2 ∧ t'.uuidOut = u)

/-- spec/41_codec.md R88: the second round-trip law and its failure, for the datapath, and for the instructions on every
syntactically valid slug. -/
def Obligations.EncodeOfDecodeIsTheCanonicalSlug : Prop :=
  (∀ sym : SymVec, (pack (unpack sym) = sym ↔ sym[21].extractLsb' 0 4 = 0#4) ∧
    (∀ (i : Nat) (hi : i < 21), (pack (unpack sym))[i] = sym[i]) ∧
    (pack (unpack sym))[21] = sym[21].extractLsb' 4 2 ++ 0#4) ∧
  (∀ (len : BitVec 8) (hi : BitVec 48) (chr : Slug) (s : State), s.ready = true → validSlug chr →
    ∃ t t' v, exec (.decode 22#8 chr) s = .next t ∧ t.rspStatus = 0#2 ∧
      exec (.encode len hi t.uuidOut) t.take = .next t' ∧ t'.rspStatus = 0#2 ∧
      c2s chr[21] = some v ∧ (t'.slugOut = chr ↔ v.toNat % 16 = 0))

/-- spec/41_codec.md R89 (the spec's inference, from R83, R87, R88): what "bijective" means here. `PACK` is injective
onto the canonical vectors; `UNPACK` is surjective, and two vectors unpack alike exactly when they differ in the four
trailing bits only, so that it is 16 to 1. -/
def Obligations.CodecBijectiveOnCanonicalSlugs : Prop :=
  (∀ u v : UUID, pack u = pack v → u = v) ∧
  (∀ sym : SymVec, canonical sym ↔ ∃ u : UUID, pack u = sym) ∧
  (∀ u : UUID, ∃ sym : SymVec, unpack sym = u) ∧
  (∀ sym sym' : SymVec, unpack sym = unpack sym' ↔
    (∀ (i : Nat) (hi : i < 21), sym[i] = sym'[i]) ∧ sym[21].extractLsb' 4 2 = sym'[21].extractLsb' 4 2)

/-! ## ENCODE and DECODE -/

/-- spec/41_codec.md R90: `ENCODE` completes in every state that accepts a command, whatever its ignored fields and the
entropy ports hold, with the slug of its operand; its corner cases and its example. -/
def Obligations.EncodeAnswersTheSlug : Prop :=
  (∀ (len : BitVec 8) (hi : BitVec 48) (u : UUID) (s : State), s.ready = true →
    ∃ t, exec (.encode len hi u) s = .next t ∧
      t.rspStatus = 0#2 ∧ t.rspValid = true ∧ t.halt = s.halt ∧
      (∀ (i : Nat) (hi : i < 22), (t.slugOut)[i] = s2c (pack u)[i]) ∧
      (∀ (i : Nat) (hi : i < 22), t.rspData.extractLsb' (168 - 8 * i) 8 = s2c (pack u)[i]) ∧
      t.rspData = ofLanes t.slugOut ∧ validSlug t.slugOut ∧
      (t.slugOut)[21] ∈ [0x41#8, 0x51#8, 0x67#8, 0x77#8]) ∧
  (∀ (len : BitVec 8) (hi : BitVec 48) (u : UUID), CommandWord.op (encodeWord (.encode len hi u)) = 0#2 ∧
    (CommandWord.data (encodeWord (.encode len hi u))).extractLsb' 0 128 = u) ∧
  ofLanes (slugOf 0#128) = 0x41414141414141414141414141414141414141414141#176 ∧
  ofLanes (slugOf (BitVec.allOnes 128)) = 0x5F5F5F5F5F5F5F5F5F5F5F5F5F5F5F5F5F5F5F5F5F77#176 ∧
  ofLanes (slugOf 0x796220c0c83149f797437ea23db3b189#128) = 0x65574967774d6778536665585133366950624f786951#176

/-- spec/41_codec.md R91, success, with spec/30_encoding.md R60 and R61: a syntactically valid slug decodes to the
unpacked value of its symbols; nothing is said of `rsp_data[175:128]` (notes/assumptions/3.md). And where the operands
stand in the word (R51, R53, R55): `op = 01`, `len = CW[9:2]`, lane `i` is `CW[185-8i : 178-8i]`, both ways. -/
def Obligations.DecodeAnswersTheValue : Prop :=
  (∀ (chr : Slug) (sym : SymVec) (s : State), s.ready = true → (∀ i : Fin 22, c2s chr[i.val] = some sym[i.val]) →
    ∃ t, exec (.decode 22#8 chr) s = .next t ∧
      t.rspStatus = 0#2 ∧ t.rspValid = true ∧ t.halt = s.halt ∧ t.rspData.extractLsb' 0 128 = unpack sym) ∧
  (∀ (len : BitVec 8) (chr : Slug), (encodeWord (.decode len chr)).extractLsb' 0 2 = 1#2 ∧
    (encodeWord (.decode len chr)).extractLsb' 2 8 = len ∧
    ∀ (i : Nat) (hi : i < 22), (encodeWord (.decode len chr)).extractLsb' (178 - 8 * i) 8 = chr[i]) ∧
  (∀ cw : CommandWord, cw.extractLsb' 0 2 = 1#2 →
    ∃ chr : Slug, decodeWord cw = .decode (cw.extractLsb' 2 8) chr ∧
      ∀ (i : Nat) (hi : i < 22), chr[i] = cw.extractLsb' (178 - 8 * i) 8)

/-- spec/60_exceptions.md R121: `InvalidLength` for every length other than 22, of the field and of a string of any
length the host presents; the characters are not examined (and so it has priority, R126, decision D7). -/
def Obligations.WrongLengthIsInvalidLength : Prop :=
  (∀ (len : BitVec 8) (chr : Slug) (s : State), s.ready = true → len ≠ 22#8 →
    (∃ t, exec (.decode len chr) s = .next t ∧ t.rspStatus = 1#2 ∧ t.rspValid = true ∧ t.halt = s.halt) ∧
    (∀ chr' : Slug, exec (.decode len chr') s = exec (.decode len chr) s)) ∧
  (∀ (str : List Code) (s : State), s.ready = true → str.length ≠ 22 →
    ∃ t, exec (assembleDecode str) s = .next t ∧ t.rspStatus = 1#2 ∧ t.rspValid = true ∧ t.halt = s.halt)

/-- spec/60_exceptions.md R122: `InvalidCharacter` when the length is 22 and some lane is outside the alphabet; which
lanes and how many does not change the response. -/
def Obligations.BadCharacterIsInvalidCharacter : Prop :=
  ∀ (chr : Slug) (s : State), s.ready = true → (∃ i : Fin 22, c2s chr[i.val] = none) →
    (∃ t, exec (.decode 22#8 chr) s = .next t ∧ t.rspStatus = 2#2 ∧ t.rspValid = true ∧ t.halt = s.halt) ∧
    (∀ chr' : Slug, (∃ i : Fin 22, c2s chr'[i.val] = none) →
      exec (.decode 22#8 chr') s = exec (.decode 22#8 chr) s)

/-- spec/41_codec.md R92: `ENCODE` is total; `DECODE` always answers, with `OK` exactly on the syntactically valid
slugs. -/
def Obligations.EncodeTotalDecodeOkOnValidSlugs : Prop :=
  (∀ (len : BitVec 8) (hi : BitVec 48) (u : UUID) (s : State), s.ready = true →
    ∃ t, exec (.encode len hi u) s = .next t ∧ t.rspValid = true ∧ t.rspStatus = 0#2) ∧
  (∀ (len : BitVec 8) (chr : Slug) (s : State), s.ready = true →
    ∃ t, exec (.decode len chr) s = .next t ∧ t.rspValid = true ∧
      (t.rspStatus = 0#2 ↔ len = 22#8 ∧ validSlug chr))

/-! ## The generator -/

/-- spec/42_generator.md R101: `STAMP`, by document bits, with its corner cases and its example. -/
def Obligations.StampSetsVersionAndVariant : Prop :=
  (∀ r : UUID,
    ubit (stamp r) 48 = false ∧ ubit (stamp r) 49 = true ∧ ubit (stamp r) 50 = false ∧ ubit (stamp r) 51 = false ∧
    ubit (stamp r) 64 = true ∧ ubit (stamp r) 65 = false ∧ (byte (stamp r) 8).extractLsb' 6 2 = 0b10#2 ∧
    (∀ k : Nat, k < 128 → k ∉ [48, 49, 50, 51, 64, 65] → ubit (stamp r) k = ubit r k) ∧
    (r.extractLsb' 76 4 = 0b0100#4 → r.extractLsb' 62 2 = 0b10#2 → stamp r = r)) ∧
  stamp 0#128 = 0x00000000000040008000000000000000#128 ∧
  stamp (BitVec.allOnes 128) = 0xffffffffffff4fffbfffffffffffffff#128 ∧
  stamp 0xdeadbeefdeadbeefdeadbeefdeadbeef#128 = 0xdeadbeefdead4eef9eadbeefdeadbeef#128

/-- spec/42_generator.md R102 (the spec's inference, from R101, R8, R9): `STAMP` as masks and by bytes; idempotent. -/
def Obligations.StampIsAMask : Prop :=
  ∀ r : UUID,
    stamp r = (r &&& 0xffffffffffff0fff3fffffffffffffff#128) ||| 0x00000000000040008000000000000000#128 ∧
    byte (stamp r) 6 = (byte r 6 &&& 0x0F#8) ||| 0x40#8 ∧
    byte (stamp r) 8 = (byte r 8 &&& 0x3F#8) ||| 0x80#8 ∧
    (∀ j : Nat, j < 16 → j ≠ 6 → j ≠ 8 → byte (stamp r) j = byte r j) ∧
    stamp (stamp r) = stamp r

/-- spec/42_generator.md R103: `NICE`, by document bits and as a mask, with its corner cases and its example. -/
def Obligations.NiceClearsTheTopBit : Prop :=
  (∀ u : UUID,
    ubit (nice u) 0 = false ∧ (∀ k : Nat, 0 < k → k < 128 → ubit (nice u) k = ubit u k) ∧
    nice u = u &&& 0x7fffffffffffffffffffffffffffffff#128 ∧
    byte (nice u) 0 = byte u 0 &&& 0x7F#8 ∧
    (ubit u 0 = false → nice u = u) ∧ nice (nice u) = nice u) ∧
  nice 0xffffffffffff4fffbfffffffffffffff#128 = 0x7fffffffffff4fffbfffffffffffffff#128

/-- spec/42_generator.md R104 (the spec's inference, from R101 and R103): the two commute. -/
def Obligations.StampAndNiceCommute : Prop := ∀ r : UUID, nice (stamp r) = stamp (nice r)

/-- spec/42_generator.md R105, success: in every state that accepts a command, with the source's answer `ok(r)`,
`RANDV4` answers the slug of `STAMP(r)`, which is what `ENCODE(STAMP(r))` answers in that state. -/
def Obligations.Randv4AnswersTheStampedSlug : Prop :=
  ∀ (len : BitVec 8) (data : Bus) (r : UUID) (s : State), s.ready = true → s.draw = some (.ok r) →
    ∃ t, exec (.randv4 len data) s = .next t ∧
      t.rspStatus = 0#2 ∧ t.rspValid = true ∧ t.halt = s.halt ∧
      (∀ (i : Nat) (hi : i < 22), (t.slugOut)[i] = s2c (pack (stamp r))[i]) ∧
      (∀ (len' : BitVec 8) (hi : BitVec 48), exec (.encode len' hi (stamp r)) s = .next t)

/-- spec/42_generator.md R106, success: `RANDNICE` answers the slug of `NICE(STAMP(r))`, which is what
`ENCODE(NICE(STAMP(r)))` answers; for a draw with `r[127] = 0` that is what `RANDV4` answers. -/
def Obligations.RandniceAnswersTheNiceSlug : Prop :=
  ∀ (len : BitVec 8) (data : Bus) (r : UUID) (s : State), s.ready = true → s.draw = some (.ok r) →
    ∃ t, exec (.randnice len data) s = .next t ∧
      t.rspStatus = 0#2 ∧ t.rspValid = true ∧ t.halt = s.halt ∧
      (∀ (i : Nat) (hi : i < 22), (t.slugOut)[i] = s2c (pack (nice (stamp r)))[i]) ∧
      (∀ (len' : BitVec 8) (hi : BitVec 48), exec (.encode len' hi (nice (stamp r))) s = .next t) ∧
      (ubit r 0 = false → exec (.randv4 len data) s = .next t)

/-- spec/42_generator.md R107: the constrained character positions, for every draw, and the full range of the others. -/
def Obligations.GeneratedSlugsKeepTheirSets : Prop :=
  (∀ (len : BitVec 8) (data : Bus) (r : UUID) (s : State), s.ready = true → s.draw = some (.ok r) →
    ∃ t t', exec (.randv4 len data) s = .next t ∧ exec (.randnice len data) s = .next t' ∧
      (∃ v : Symbol, v.toNat ≤ 31 ∧ (t'.slugOut)[0] = s2c v) ∧
      (∀ c ∈ [(t.slugOut)[8], (t'.slugOut)[8]], c ∈ [0x51#8, 0x52#8, 0x53#8, 0x54#8]) ∧
      (∀ c ∈ [(t.slugOut)[10], (t'.slugOut)[10]], c ∈
        [0x43#8, 0x47#8, 0x4B#8, 0x4F#8, 0x53#8, 0x57#8, 0x61#8, 0x65#8,
         0x69#8, 0x6D#8, 0x71#8, 0x75#8, 0x79#8, 0x32#8, 0x36#8, 0x2D#8]) ∧
      (∀ c ∈ [(t.slugOut)[21], (t'.slugOut)[21]], c ∈ [0x41#8, 0x51#8, 0x67#8, 0x77#8])) ∧
  (∀ (len : BitVec 8) (hi : BitVec 48) (u : UUID) (s : State), s.ready = true →
    ∃ t, exec (.encode len hi u) s = .next t ∧ (t.slugOut)[21] ∈ [0x41#8, 0x51#8, 0x67#8, 0x77#8]) ∧
  (∀ r : UUID, (pack (nice (stamp r)))[0].toNat ≤ 31 ∧
    (∀ u ∈ [stamp r, nice (stamp r)], (pack u)[8].extractLsb' 2 4 = 0b0100#4 ∧ (pack u)[10].extractLsb' 0 2 = 0b10#2 ∧
      (pack u)[21].extractLsb' 0 4 = 0#4)) ∧
  (∀ v : Symbol, ∃ r : UUID, (pack (stamp r))[0] = v) ∧
  (∀ (p : Nat) (hp : p < 22), p ∉ [0, 8, 10, 21] → ∀ v : Symbol,
    ∃ r : UUID, (pack (stamp r))[p] = v ∧ (pack (nice (stamp r)))[p] = v)

/-- spec/42_generator.md R105 (corner cases) and R106, with R87: the host recovers the generated value by decoding the
slug it has taken. -/
def Obligations.DecodeRecoversTheGeneratedValue : Prop :=
  ∀ (len : BitVec 8) (data : Bus) (r : UUID) (s : State), s.ready = true → s.draw = some (.ok r) →
    (∃ t t', exec (.randv4 len data) s = .next t ∧ exec (.decode 22#8 t.slugOut) t.take = .next t' ∧
      t'.rspStatus = 0#2 ∧ t'.uuidOut = stamp r) ∧
    (∃ t t', exec (.randnice len data) s = .next t ∧ exec (.decode 22#8 t.slugOut) t.take = .next t' ∧
      t'.rspStatus = 0#2 ∧ t'.uuidOut = nice (stamp r))

/-- spec/60_exceptions.md R123 (decision D11) and spec/42_generator.md R111: a failed draw ends a generator command with
status 3 and `HALT`, at its acceptance or after a wait, and the bits on the data port do not matter: no retry, no
substitute. -/
def Obligations.FailedDrawHaltsTheCore : Prop :=
  (∀ (len : BitVec 8) (data : Bus) (s : State), s.ready = true → s.draw = some .fail →
    (∃ t, exec (.randv4 len data) s = .next t ∧ t.rspStatus = 3#2 ∧ t.rspValid = true ∧ t.halt = true ∧
      t.inFlight = none) ∧
    (∃ t, exec (.randnice len data) s = .next t ∧ t.rspStatus = 3#2 ∧ t.rspValid = true ∧ t.halt = true ∧
      t.inFlight = none)) ∧
  (∀ (g : Generator) (s : State), s.now.rst = false → s.rspValid = false → s.inFlight = some g → s.draw = some .fail →
    ∃ t, step s = .next t ∧ t.rspStatus = 3#2 ∧ t.rspValid = true ∧ t.halt = true ∧ t.inFlight = none)

/-- spec/10_state.md R35, R37 and spec/70_reset_and_hazards.md R147 (b): where the source has not answered, an accepted
generator command waits, `ent_req` goes up and nothing is written. This says where the form waits; where it completes is
said above. -/
def Obligations.UnansweredGeneratorWaits : Prop :=
  ∀ (len : BitVec 8) (data : Bus) (s : State), s.ready = true → s.draw = none →
    exec (.randv4 len data) s = .next { s with inFlight := some .randv4 } ∧
    exec (.randnice len data) s = .next { s with inFlight := some .randnice }

/-- spec/10_state.md R35, R37 with R105, R106: a waiting generator command ends, at the step at which its answer comes,
with the response it would have had at once (at that very step: the model's untimed reading, notes/assumptions/10.md). -/
def Obligations.WaitingGeneratorEndsWithItsAnswer : Prop :=
  ∀ (g : Generator) (s : State), s.now.rst = false → s.rspValid = false → s.inFlight = some g →
    (∀ r : UUID, s.draw = some (.ok r) →
      ∃ t, step s = .next t ∧ t.rspValid = true ∧ t.rspStatus = 0#2 ∧ t.inFlight = none ∧ t.halt = s.halt ∧
        t.slugOut = slugOf (match g with | .randv4 => stamp r | .randnice => nice (stamp r))) ∧
    (s.draw = some .fail →
      ∃ t, step s = .next t ∧ t.rspValid = true ∧ t.rspStatus = 3#2 ∧ t.inFlight = none ∧ t.halt = true)

/-- spec/30_encoding.md R66 (decision D10): the answer on the entropy ports. -/
def Obligations.EntropyAnswerFromThePorts : Prop :=
  ∀ p : Inputs,
    (p.entFail = true → p.answer = some .fail) ∧
    (p.entValid = true → p.entFail = false → p.answer = some (.ok p.entData)) ∧
    (p.entValid = false → p.entFail = false → p.answer = none) ∧
    (∀ (r : UUID) (k : Nat), p.answer = some (.ok r) → k < 128 → ubit r k = p.entData.getLsbD (127 - k))

/-! ## What a command may do, and what it leaves alone -/

/-- spec/60_exceptions.md R124: which instruction can raise what, both ways. -/
def Obligations.WhichCommandRaisesWhat : Prop :=
  (∀ (len : BitVec 8) (hi : BitVec 48) (u : UUID) (s t : State), s.ready = true →
    exec (.encode len hi u) s = .next t → t.rspStatus = 0#2) ∧
  (∀ (len : BitVec 8) (chr : Slug) (s t : State), s.ready = true →
    exec (.decode len chr) s = .next t → t.rspStatus ≠ 3#2) ∧
  (∀ (len : BitVec 8) (data : Bus) (s t : State), s.ready = true →
    (exec (.randv4 len data) s = .next t ∨ exec (.randnice len data) s = .next t) →
    t.rspValid = true → t.rspStatus = 0#2 ∨ t.rspStatus = 3#2) ∧
  (∀ s t : State, s.now.rst = false → s.rspValid = false → s.inFlight.isSome = true → step s = .next t →
    t.rspValid = true → t.rspStatus = 0#2 ∨ t.rspStatus = 3#2) ∧
  (∀ s : State, s.ready = true →
    (∃ len chr t, exec (.decode len chr) s = .next t ∧ t.rspStatus = 1#2) ∧
    (∃ len chr t, exec (.decode len chr) s = .next t ∧ t.rspStatus = 2#2)) ∧
  (∃ s t t', s.ready = true ∧ exec assembleRandv4 s = .next t ∧ t.rspStatus = 3#2 ∧
    exec assembleRandnice s = .next t' ∧ t'.rspStatus = 3#2)

/-- The frame of `ENCODE` and `DECODE` (spec/41_codec.md R90, R91; spec/10_state.md R20, R37): they write the three
response elements and nothing else: `HALT`, the wait, the answers owed and the outside agents' moves are as they were.
A command that is not accepted writes nothing. The occasion counter is the model's own (notes/assumptions/3.md). -/
def Obligations.CodecCommandsFrame : Prop :=
  ∀ (i : Instr) (s t : State), (i.op = 0#2 ∨ i.op = 1#2) → exec i s = .next t →
    t.halt = s.halt ∧ t.inFlight = s.inFlight ∧ t.owed = s.owed ∧ t.moves = s.moves ∧
    (s.ready = false → t = s)

/-- The frame of `RANDV4` and `RANDNICE` (spec/42_generator.md R105, R106, R110; spec/10_state.md R22, R37): `HALT`
changes on a failed draw only; a command that waits writes no response; the answers owed and the outside agents' moves
are as they were. A command that is not accepted writes nothing. -/
def Obligations.GeneratorCommandsFrame : Prop :=
  ∀ (i : Instr) (s t : State), (i.op = 2#2 ∨ i.op = 3#2) → exec i s = .next t →
    t.owed = s.owed ∧ t.moves = s.moves ∧
    (s.draw ≠ some .fail → t.halt = s.halt) ∧
    (s.draw = none → t.rspValid = s.rspValid ∧ t.rspStatus = s.rspStatus ∧ t.rspData = s.rspData) ∧
    (s.draw ≠ none → t.inFlight = s.inFlight) ∧
    (s.ready = false → t = s)

/-- spec/10_state.md R20, spec/20_memory.md R48 and spec/00_scope.md R15: the result of a command is the same whatever
ran before it. From any two states that accept it, with the same answer of the source, it leaves the same `HALT`, the
same wait, the same `RSP_VALID`, and the same response in every bit the spec gives a value. -/
def Obligations.ResultsDoNotDependOnHistory : Prop :=
  ∀ (i : Instr) (s s' t t' : State), s.ready = true → s'.ready = true → s.draw = s'.draw →
    exec i s = .next t → exec i s' = .next t' →
    t.halt = t'.halt ∧ t.inFlight = t'.inFlight ∧ t.rspValid = t'.rspValid ∧
    (t.rspValid = true → t.rspStatus = t'.rspStatus ∧
      (t.rspStatus = 0#2 → t.uuidOut = t'.uuidOut ∧ (i.op ≠ 1#2 → t.rspData = t'.rspData)))

/-- spec/10_state.md R33, R37, spec/60_exceptions.md R129 (decision D11) and U9: while `HALT = 1`, while a response waits
and while a command is in flight no command is accepted, `ENCODE` and `DECODE` included; that a presented one is a step
in which nothing changes is the model's reading (notes/assumptions/15.md). -/
def Obligations.NothingAcceptedUnlessReady : Prop :=
  ∀ (i : Instr) (s : State), (s.halt = true ∨ s.rspValid = true ∨ s.inFlight.isSome = true) →
    exec i s = .next s ∧ s.outputs.cmdReady = false ∧ s.accepted = none

/-! ## The step -/

/-- A step runs the decoded command (spec/10_state.md R33, R37): when a command is presented to a core that is idle (or
halted) and no reset is applied, the step is the command's meaning at that state, and then the ports go on to their next
values and an answer that came is no longer owed (R141; that the answers owed are counted is the model's,
notes/assumptions/6.md). -/
def Obligations.StepRunsThePresentedCommand : Prop :=
  ∀ s : State, s.now.rst = false → s.rspValid = false → s.inFlight = none → s.now.cmdValid = true →
    s.strayAnswer = false →
    ∃ t, exec (decodeWord (commandWord s.now.cmdData s.now.cmdLen s.now.cmdOp)) s = .next t ∧
      step s = .next { t with
        moves := t.moves.tail
        owed := t.owed - (if s.now.answer.isSome then 1 else 0) }

/-- spec/10_state.md R38 (decisions D3, D9): `take` clears `RSP_VALID` and changes nothing else of the core, and there is
no take while `RSP_VALID = 0`; after the take of an `ENTROPY_FAILURE` response `HALT = 1` (the premise `Inv` rules out
states no run reaches), and then no command is accepted and nothing is taken: no step but reset is enabled. -/
def Obligations.TakeClearsValidOnly : Prop :=
  (∀ s : State, s.rspValid = false → s.taken = none) ∧
  ∀ s : State, s.now.rst = false → s.strayAnswer = false → s.rspValid = true → s.now.rspReady = true →
    ∃ t, step s = .next t ∧ t.rspValid = false ∧ t.halt = s.halt ∧ t.rspStatus = s.rspStatus ∧ t.rspData = s.rspData ∧
      t.inFlight = s.inFlight ∧ t.moves = s.moves.tail ∧ s.taken = some (s.rspData ++ s.rspStatus) ∧
      (s.Inv → s.rspStatus = 3#2 → t.halt = true ∧ t.accepted = none ∧ t.taken = none ∧ t.inFlight = none)

/-- spec/10_state.md R39, R36 and spec/70_reset_and_hazards.md R141 (decision D13): reset in every state; the command in
flight is abandoned, and the answer to its request, unless it comes at this very step, is still owed. Nothing is said of
`RSP_STATUS` and `RSP_DATA`, which are unspecified (notes/assumptions/4.md); that the answers owed are counted is the
model's (notes/assumptions/6.md). -/
def Obligations.ResetWorksInEveryState : Prop :=
  ∀ s : State, s.now.rst = true →
    ∃ t, step s = .next t ∧ t.halt = false ∧ t.rspValid = false ∧ t.inFlight = none ∧ t.moves = s.moves.tail ∧
      t.owed = s.owed + (if s.inFlight.isSome then 1 else 0) - (if s.now.answer.isSome then 1 else 0)

/-- spec/70_reset_and_hazards.md R141 (decision D13): "an entropy answer that arrives after reset for the abandoned request
must be discarded by the block and must not be used for a later command". In turn: a reset that abandons an unanswered
command leaves its answer owed, and what comes next is no draw; a late answer at the step at which a generator command is
accepted; one while a later command is in flight; one while the core is idle; one while a response waits, taken or not;
and, whatever the core does at the step, the step is the one without that answer, but for the count. That answers come
in the order of the requests, and are counted, is the model's (notes/assumptions/6.md). -/
def Obligations.LateAnswerIsDiscarded : Prop :=
  (∀ s : State, s.now.rst = true → s.inFlight.isSome = true → s.now.answer = none →
    ∃ t, step s = .next t ∧ t.owed = s.owed + 1 ∧ t.draw = none) ∧
  (∀ (s : State) (n : Nat), s.now.rst = false → s.owed = n + 1 → s.now.answer.isSome = true →
    (s.ready = true → s.now.cmdValid = true → (s.now.cmdOp = 2#2 ∨ s.now.cmdOp = 3#2) →
      ∃ t, step s = .next t ∧ t.inFlight.isSome = true ∧ t.rspValid = false ∧ t.halt = false ∧ t.owed = n) ∧
    (∀ g : Generator, s.rspValid = false → s.inFlight = some g →
      step s = .next { s with owed := n, moves := s.moves.tail }) ∧
    (s.rspValid = false → s.inFlight = none → s.now.cmdValid = false →
      step s = .next { s with owed := n, moves := s.moves.tail }) ∧
    (s.rspValid = true →
      step s = .next { s with rspValid := !s.now.rspReady, owed := n, moves := s.moves.tail }) ∧
    (∃ t, step s.withoutAnswer = .next t ∧ step s = .next { t with owed := n }))

/-- spec/10_state.md R22 (decision D11): `HALT` is set by a generator command whose draw fails and by nothing else, and
cleared by reset only; while it is 1 no command is accepted. -/
def Obligations.HaltSetByFailedDrawClearedByReset : Prop :=
  ∀ s t : State, step s = .next t →
    (s.now.rst = true → t.halt = false) ∧
    (s.halt = true → t.halt = false → s.now.rst = true) ∧
    (s.now.rst = false → s.draw = some .fail →
      ((s.rspValid = false ∧ s.inFlight.isSome = true) ∨ s.acceptsGenerator = true) → t.halt = true) ∧
    (s.halt = false → t.halt = true →
      s.now.rst = false ∧ s.draw = some .fail ∧ (s.inFlight.isSome = true ∨ s.acceptsGenerator = true)) ∧
    (s.halt = true → s.accepted = none)

/-- spec/10_state.md R23 (decisions D3, D9): `RSP_VALID` goes up exactly when a command completes (an accepted `ENCODE`
or `DECODE` at once, a generator command when its draw is answered) and down exactly by a take or reset; while it is 1 no
command is accepted and the response is not overwritten. -/
def Obligations.ResponseIsNeverOverwritten : Prop :=
  ∀ s t : State, step s = .next t →
    (s.rspValid = true → s.accepted = none ∧ (s.now.rst = false → t.rspStatus = s.rspStatus ∧ t.rspData = s.rspData)) ∧
    (s.rspValid = true → (t.rspValid = false ↔ s.now.rst = true ∨ s.now.rspReady = true)) ∧
    (s.rspValid = false → (t.rspValid = true ↔ s.now.rst = false ∧
      ((∃ i, s.accepted = some i ∧ (i.op = 0#2 ∨ i.op = 1#2)) ∨
        ((s.inFlight.isSome = true ∨ s.acceptsGenerator = true) ∧ s.draw.isSome = true))))

/-- spec/10_state.md R36 and spec/70_reset_and_hazards.md R151 (P1 to P3): what the reset state is, in the elements the
spec gives a value, and that it accepts a command. -/
def Obligations.ResetStateIsIdle : Prop :=
  State.reset.halt = false ∧ State.reset.rspValid = false ∧ State.reset.inFlight = none ∧ State.reset.owed = 0 ∧
  State.reset.outputs.cmdReady = true ∧ State.reset.outputs.entReq = false

/-- spec/10_state.md R32 to R35 and spec/70_reset_and_hazards.md R140: the output ports. That `ent_req` is 1 already at
the step that accepts a generator command is the model's inference (notes/assumptions/18.md). -/
def Obligations.OutputPortsFollowTheState : Prop :=
  ∀ s : State,
    (s.now.rst = true → s.outputs.cmdReady = false ∧ s.outputs.rspValid = false ∧ s.outputs.entReq = false ∧
      s.outputs.halted = false) ∧
    (s.now.rst = false → s.outputs.halted = s.halt ∧ s.outputs.rspValid = s.rspValid ∧
      (s.outputs.entReq = true ↔ s.inFlight.isSome = true ∨ s.acceptsGenerator = true) ∧
      (s.outputs.cmdReady = true ↔ s.halt = false ∧ s.rspValid = false ∧ s.inFlight = none)) ∧
    s.outputs.rspStatus = s.rspStatus ∧ s.outputs.rspData = s.rspData

/-- spec/10_state.md R35 with R37, and spec/70_reset_and_hazards.md R146 (1): the request of a generator command stands
from its acceptance (notes/assumptions/18.md) to its answer and no longer. At every step to a next state: `ent_req` is 1
where a generator command is accepted, and 0 where an `ENCODE` or `DECODE` is; where it is 1 and no answer comes, the
command is in flight after the step, so that `ent_req` stays 1 unless reset; where it is 1 and the answer comes, a
response is written, nothing is in flight, and `ent_req` is 0 at the next step; where it is 0 nothing is in flight after
the step and `HALT` does not go up. The premise `Inv` rules out states no run reaches. -/
def Obligations.RequestStandsUntilItsAnswer : Prop :=
  ∀ s t : State, s.Inv → step s = .next t →
    (∀ i : Instr, s.accepted = some i → (s.outputs.entReq = true ↔ isGenerator i = true)) ∧
    (s.outputs.entReq = true → s.draw = none →
      t.inFlight.isSome = true ∧ t.rspValid = false ∧ (t.outputs.entReq = true ↔ t.now.rst = false)) ∧
    (s.outputs.entReq = true → s.draw.isSome = true →
      t.inFlight = none ∧ t.rspValid = true ∧ t.outputs.entReq = false) ∧
    (s.outputs.entReq = false → t.inFlight = none ∧ (t.halt = true → s.halt = true))

/-- No step ends in a fault, and the one refusal is an answer of the source that no request waits for
(spec/93_implementation_defined.md U7; spec/70_reset_and_hazards.md R146 (1), R150; notes/assumptions/5.md). -/
def Obligations.OnlyStrayAnswersAreRefused : Prop :=
  ∀ s : State, (∃ t, step s = .next t) ∨
    (step s = .refused .answerWithoutRequest ∧ s.now.rst = false ∧ s.now.answer.isSome = true ∧ s.owed = 0 ∧
      s.inFlight = none ∧ s.acceptsGenerator = false ∧ s.outputs.entReq = false)

/-! ## Runs -/

/-- The reset state satisfies the invariant (spec/10_state.md R36). -/
def Obligations.ResetStateSatisfiesInv : Prop := State.reset.Inv

/-- Every step keeps the invariant (spec/10_state.md R22, R33, R37; spec/60_exceptions.md R129; spec/95_test_vectors.md
V9): a command in flight has written no response and halted nothing, and a waiting response has status
`ENTROPY_FAILURE` exactly when the core is halted. -/
def Obligations.EveryStepKeepsInv : Prop := ∀ s t : State, s.Inv → step s = .next t → t.Inv

/-- spec/10_state.md R34 and spec/20_memory.md R48 (decision D3): one response per accepted command over any run without
reset: the commands accepted and those pending at the start are as many as the responses taken and those pending at the
end, and at most one is ever pending (so each response taken is that of the oldest command not yet answered). -/
def Obligations.OneResponsePerAcceptedCommand : Prop :=
  ∀ (k : Nat) (s t : State), s.Inv → (∀ p ∈ s.moves.take k, p.rst = false) → Sys2Proof.core.run k s = .next t →
    (State.acceptedIn k s).length + s.pending = (State.takenIn k s).length + t.pending ∧ t.pending ≤ 1

/-- spec/10_state.md R35 and spec/42_generator.md R100: "exactly one request per accepted generator command and none for
`ENCODE` or `DECODE`", and "exactly one answer per request", over any run without reset: the generator commands accepted
and the one in flight at the start are as many as the answers to the core's own requests and the one in flight at the end.
Late answers are not counted (R141; notes/assumptions/6.md). -/
def Obligations.OneAnswerPerGeneratorCommand : Prop :=
  ∀ (k : Nat) (s t : State), s.Inv → (∀ p ∈ s.moves.take k, p.rst = false) → Sys2Proof.core.run k s = .next t →
    (State.acceptedIn k s).countP isGenerator + s.inFlight.isSome.toNat =
      (State.answersIn k s).length + t.inFlight.isSome.toNat

/-- spec/60_exceptions.md R129 and spec/70_reset_and_hazards.md R147 (a) (decision D11): a halted core accepts no command
on any run without reset, and stays halted. -/
def Obligations.HaltedCoreAcceptsNothingUntilReset : Prop :=
  ∀ (k : Nat) (s t : State), s.halt = true → (∀ p ∈ s.moves.take k, p.rst = false) → Sys2Proof.core.run k s = .next t →
    t.halt = true ∧ State.acceptedIn k s = []

/-- spec/70_reset_and_hazards.md R147 (b) (decision D12): the run exists in which an accepted generator command waits for
ever: with no reset and a source that gives no answer but late ones, owed to abandoned requests (R141;
notes/assumptions/6.md), the command is still in flight after any number of steps, with no response. -/
def Obligations.SilentSourceLeavesTheCoreWaiting : Prop :=
  ∀ (k : Nat) (g : Generator) (s : State), s.rspValid = false → s.inFlight = some g →
    (∀ p ∈ s.moves, p.rst = false) → s.onlyLateAnswers →
    ∃ t, Sys2Proof.core.run k s = .next t ∧ t.inFlight = some g ∧ t.rspValid = false ∧ t.halt = s.halt ∧
      t.outputs.entReq = true ∧ t.outputs.cmdReady = false ∧ State.acceptedIn k s = [] ∧ State.takenIn k s = []

/-- spec/70_reset_and_hazards.md R147 (c) and R145 (decision D3): a response that the host does not take waits for ever,
unchanged, and the block accepts nothing, whatever late answers come (R141; notes/assumptions/6.md). -/
def Obligations.UntakenResponseWaits : Prop :=
  ∀ (k : Nat) (s : State), s.rspValid = true →
    (∀ p ∈ s.moves, p.rst = false ∧ p.rspReady = false) → s.onlyLateAnswers →
    ∃ t, Sys2Proof.core.run k s = .next t ∧ t.rspValid = true ∧ t.rspStatus = s.rspStatus ∧ t.rspData = s.rspData ∧
      State.acceptedIn k s = []

/-- spec/70_reset_and_hazards.md R148: "`ENCODE` and `DECODE` complete without the help of any other agent, and ... a
generator command completes once the source answers": a command presented to a core that accepts it has its response
after that one step, `ENCODE` and `DECODE` also where a late answer comes at it
(notes/assumptions/6.md; one step is the model's untimed reading, notes/assumptions/10.md). -/
def Obligations.CommandsCompleteOnTheirOwn : Prop :=
  (∀ (s : State) (cw : CommandWord), s.ready = true → (s.now.answer = none ∨ 0 < s.owed) →
    (CommandWord.op cw = 0#2 ∨ CommandWord.op cw = 1#2) →
    ∃ t, step (s.presenting cw) = .next t ∧ t.rspValid = true) ∧
  (∀ (s : State) (cw : CommandWord), s.ready = true → s.draw.isSome = true →
    (CommandWord.op cw = 2#2 ∨ CommandWord.op cw = 3#2) →
    ∃ t, step (s.presenting cw) = .next t ∧ t.rspValid = true)

/-- spec/70_reset_and_hazards.md R149: "The observable result of the run is the sequence of responses, one per command, in
command order": in a run that has ended well each command presented has the one response taken in its place, an answer to
that command, and none is an entropy failure (when a command counts as presented, and which commands
to come count against the run, is the model's, notes/assumptions/19.md).
-/
def Obligations.EndedRunAnswersEveryCommand : Prop :=
  ∀ (k : Nat) (s t : State), State.endedWell k s t →
    List.Forall₂ answeredBy (State.presentedIn k s) (State.takenIn k s) ∧
    ∀ w ∈ State.takenIn k s, w.extractLsb' 0 2 ≠ 3#2

/-- spec/70_reset_and_hazards.md R149: a run that has ended well stays so, on any further steps in which the host does
nothing more and no answer comes but late ones (R141; notes/assumptions/6.md), with the same commands and responses (notes/assumptions/19.md). -/
def Obligations.EndedRunStaysEnded : Prop :=
  ∀ (k j : Nat) (s t : State), State.endedWell k s t → (∀ p ∈ t.moves, p.rst = false) → t.onlyLateAnswers →
    ∃ t', State.endedWell (k + j) s t' ∧ State.presentedIn (k + j) s = State.presentedIn k s ∧
      State.takenIn (k + j) s = State.takenIn k s
end

