-- ==== Sys2Proof/Laws/Lanes.lean ====
section
/-! SUPPORT. What concatenation, lanes and the fields of the command word are, bit by bit. -/

namespace Sys2Proof

/-- The bits of a concatenation: bit `k` is bit `k % w` of the element `k / w` places from the end. -/
theorem concatBE_getLsbD {w N : Nat} (hw : 0 < w) (v : List (BitVec w)) (hN : w * v.length ≤ N) (k : Nat)
    (hk : k < w * v.length) :
    (concatBE N v).getLsbD k = (v.getD (v.length - 1 - k / w) 0#w).getLsbD (k % w) := by
  induction v using List.reverseRecOn generalizing k with
  | nil => simp at hk
  | append_singleton v x ih =>
    have hcat : concatBE N (v ++ [x]) = (concatBE N v <<< w) ||| x.setWidth N := by
      simp [concatBE, List.foldl_append]
    simp only [List.length_append, List.length_cons, List.length_nil] at hN hk ⊢
    rw [hcat]
    rcases Nat.lt_or_ge k w with hlow | hhigh
    · have hkN : k < N := by nlinarith
      simp [Nat.div_eq_of_lt hlow, Nat.mod_eq_of_lt hlow, hlow, hkN]
    · have hkN : k < N := by omega
      have hrest : k - w < w * v.length := by
        have : w * (v.length + (0 + 1)) = w * v.length + w := by ring
        omega
      have hdiv : k / w = (k - w) / w + 1 := by
        rw [Nat.div_eq k w]; simp [hw, hhigh]
      have hq : (k - w) / w < v.length := Nat.div_lt_of_lt_mul hrest
      have hmod : (k - w) % w = k % w := (Nat.mod_eq_sub_mod hhigh).symm
      have hidx : v.length + (0 + 1) - 1 - k / w = v.length - 1 - (k - w) / w := by omega
      have hx : (x.setWidth N).getLsbD k = false := by simp [BitVec.getLsbD_of_ge x k hhigh]
      have hshift : (concatBE N v <<< w).getLsbD k = (concatBE N v).getLsbD (k - w) := by
        rw [BitVec.getLsbD_shiftLeft]
        simp [hkN, Nat.not_lt.mpr hhigh]
      have hlast : ∀ q, q < v.length → v.length - 1 - q < v.length := by omega
      rw [BitVec.getLsbD_or, hx, Bool.or_false, hshift, ih (by nlinarith) (k - w) hrest, hidx, hmod,
        List.getD_append _ _ _ _ (hlast _ hq)]

/-- A concatenation read as a number: shift by one element and add the next. -/
theorem concatBE_toNat_foldl {w : Nat} (N : Nat) (v : List (BitVec w)) (h : w * v.length ≤ N) :
    (concatBE N v).toNat = v.foldl (fun a x => a * 2 ^ w + x.toNat) 0 ∧ (concatBE N v).toNat < 2 ^ (w * v.length) := by
  induction v using List.reverseRecOn with
  | nil => simp [concatBE]
  | append_singleton v x ih =>
    have hcat : concatBE N (v ++ [x]) = (concatBE N v <<< w) ||| x.setWidth N := by
      simp [concatBE, List.foldl_append]
    simp only [List.length_append, List.length_cons, List.length_nil] at h
    have hl : w * (v.length + (0 + 1)) = w * v.length + w := by ring
    obtain ⟨hfold, hbound⟩ := ih (by omega)
    have hx := x.isLt
    have hlt : (concatBE N v).toNat * 2 ^ w + x.toNat < 2 ^ (w * v.length + w) := by
      rw [pow_add]
      nlinarith
    have hle : 2 ^ (w * v.length + w) ≤ 2 ^ N := Nat.pow_le_pow_right (by decide) (by omega)
    have hxN : x.toNat < 2 ^ N := lt_of_lt_of_le hx (Nat.pow_le_pow_right (by decide) (by omega))
    have hsN : (concatBE N v).toNat * 2 ^ w < 2 ^ N := by omega
    have hadd : (concatBE N (v ++ [x])).toNat = (concatBE N v).toNat * 2 ^ w + x.toNat := by
      rw [hcat, BitVec.toNat_or, BitVec.toNat_shiftLeft, BitVec.toNat_setWidth, Nat.shiftLeft_eq, Nat.mod_eq_of_lt hsN,
        Nat.mod_eq_of_lt hxN, mul_comm, Nat.two_pow_add_eq_or_of_lt hx]
    exact ⟨by rw [hadd, hfold]; simp [List.foldl_append], by rw [hadd]; simpa [hl] using hlt⟩

theorem foldl_eq_weighted_sum {w n : Nat} (v : Vector (BitVec w) n) :
    v.toList.foldl (fun a x => a * 2 ^ w + x.toNat) 0 =
      ((List.finRange n).map fun i => v[i.val].toNat * 2 ^ (w * (n - 1 - i.val))).sum := by
  induction n with
  | zero =>
    rw [Vector.eq_empty (xs := v)]
    rfl
  | succ n ih =>
    have hl : v.toList = v.pop.toList ++ [v.back] := by
      apply List.ext_getElem (by simp)
      intro k h1 h2
      simp only [Vector.length_toList] at h1
      rcases Nat.lt_or_ge k n with h | h
      · rw [List.getElem_append_left (by simpa using h)]
        simp
      · have hk : k = n := by omega
        subst hk
        simp [Vector.back]
    rw [hl, List.foldl_append, ih v.pop]
    simp only [List.foldl_cons, List.foldl_nil, List.finRange_succ_last, List.map_append, List.map_map, List.map_cons,
      List.map_nil, List.sum_append, List.sum_cons, List.sum_nil]
    congr 1
    · rw [← List.sum_map_mul_right]
      congr 1
      apply List.map_congr_left
      intro i _
      have e : w * (n - i.val) = w * (n - 1 - i.val) + w := by
        have hi : n - i.val = (n - 1 - i.val) + 1 := by omega
        rw [hi]
        ring
      simp [e, pow_add, mul_assoc]
    · simp [Vector.back]

/-- The bits of a data bus built from 22 characters (R44). -/
theorem ofLanes_getLsbD (chr : Slug) (k : Nat) (hk : k < 176) :
    (ofLanes chr).getLsbD k = (chr[21 - k / 8]'(by omega)).getLsbD (k % 8) := by
  have h := concatBE_getLsbD (N := 176) (by decide) chr.toList (by simp) k (by simpa using hk)
  rw [List.getD_eq_getElem _ _ (by simp; omega)] at h
  simpa [ofLanes] using h

/-- Lane `i` of a data bus built from 22 characters is character `i` (R44, R59). -/
@[simp] theorem lane_ofLanes (chr : Slug) (i : Nat) (hi : i < 22) : lane (ofLanes chr) i = chr[i] := by
  apply BitVec.eq_of_getLsbD_eq
  intro k hk
  have hq : (168 - 8 * i + k) / 8 = 21 - i := by omega
  have hm : (168 - 8 * i + k) % 8 = k := by omega
  have hidx : 21 - (21 - i) = i := by omega
  simp [lane, hk, ofLanes_getLsbD chr (168 - 8 * i + k) (by omega), hq, hm, hidx]

@[simp] theorem lanes_ofLanes (chr : Slug) : lanes (ofLanes chr) = chr := by
  apply Vector.ext
  intro i hi
  simp [lanes]

@[simp] theorem ofLanes_lanes (data : Bus) : ofLanes (lanes data) = data := by
  apply BitVec.eq_of_getLsbD_eq
  intro k hk
  have hidx : 168 - 8 * (21 - k / 8) + k % 8 = k := by omega
  simp [ofLanes_getLsbD _ k hk, lanes, lane, hidx, Nat.mod_lt]

/-- The bits of a command word, field by field (R50, R51). -/
theorem commandWord_getLsbD (data : Bus) (len : BitVec 8) (op : BitVec 2) (k : Nat) :
    (commandWord data len op).getLsbD k =
      if k < 2 then op.getLsbD k
      else if k < 10 then len.getLsbD (k - 2)
      else data.getLsbD (k - 10) := by
  have h : (commandWord data len op).getLsbD k = ((data ++ len) ++ op).getLsbD k := rfl
  rw [h, BitVec.getLsbD_append, BitVec.getLsbD_append]
  have e : k - 2 - 8 = k - 10 := by omega
  by_cases h2 : k < 2
  · simp [h2]
  · by_cases h10 : k < 10
    · have h8 : k - 2 < 8 := by omega
      simp [h2, h10, h8]
    · have h8 : ¬ k - 2 < 8 := by omega
      simp [h2, h10, h8, e]

/-- The fields of a command word built from its three ports (R50, R51). -/
@[simp] theorem op_commandWord (data : Bus) (len : BitVec 8) (op : BitVec 2) :
    CommandWord.op (commandWord data len op) = op := by
  apply BitVec.eq_of_getLsbD_eq
  intro k hk
  rw [CommandWord.op, BitVec.getLsbD_extractLsb', commandWord_getLsbD]
  simp [hk]

@[simp] theorem len_commandWord (data : Bus) (len : BitVec 8) (op : BitVec 2) :
    CommandWord.len (commandWord data len op) = len := by
  apply BitVec.eq_of_getLsbD_eq
  intro k hk
  have h2 : ¬ 2 + k < 2 := by omega
  have h10 : 2 + k < 10 := by omega
  rw [CommandWord.len, BitVec.getLsbD_extractLsb', commandWord_getLsbD]
  simp only [h2, h10, if_true, if_false, Nat.add_sub_cancel_left]
  simp [hk]

@[simp] theorem data_commandWord (data : Bus) (len : BitVec 8) (op : BitVec 2) :
    CommandWord.data (commandWord data len op) = data := by
  apply BitVec.eq_of_getLsbD_eq
  intro k hk
  have h2 : ¬ 10 + k < 2 := by omega
  rw [CommandWord.data, BitVec.getLsbD_extractLsb', commandWord_getLsbD]
  simp [hk, h2]

/-- A command word is its three fields put together (R50). -/
@[simp] theorem commandWord_fields (cw : CommandWord) :
    commandWord (CommandWord.data cw) (CommandWord.len cw) (CommandWord.op cw) = cw := by
  apply BitVec.eq_of_getLsbD_eq
  intro k hk
  have hlen : k - 2 < 8 ↔ k < 10 := by omega
  rw [commandWord_getLsbD, CommandWord.op, CommandWord.len, CommandWord.data, BitVec.getLsbD_extractLsb',
    BitVec.getLsbD_extractLsb', BitVec.getLsbD_extractLsb']
  by_cases h2 : k < 2
  · simp [h2]
  · by_cases h10 : k < 10
    · have e : 2 + (k - 2) = k := by omega
      simp [h2, h10, hlen, e]
    · have e : 10 + (k - 10) = k := by omega
      have h176 : k - 10 < 176 := by omega
      simp [h2, h10, h176, e]

end Sys2Proof
end

