-- ==== Sys2Proof/Laws/Codec.lean ====
section
/-! SUPPORT. What each datapath function does, said once: the lookups as relations on the table, and `PACK`, `UNPACK`,
`STAMP` and `NICE` bit by bit. -/

namespace Sys2Proof.Machine

/-- The table holds 64 pairwise different codes, searched back to the index (R73). -/
@[simp] theorem c2s_s2c (v : Symbol) : c2s (s2c v) = some v := by
  revert v
  decide

/-- The search finds `v` exactly where the table holds the code (R72). -/
theorem c2s_eq_some_iff (c : Code) (v : Symbol) : c2s c = some v ↔ s2c v = c := by
  constructor
  · intro h
    obtain ⟨n, hn, hv⟩ := Option.map_eq_some_iff.mp h
    obtain ⟨hlt, hc, -⟩ := List.findIdx?_eq_some_iff_getElem.mp hn
    have h64 : n < 2 ^ 6 := hlt
    rw [← hv, s2c, BitVec.toNat_ofNat, Nat.mod_eq_of_lt h64, List.getD_eq_getElem _ _ hlt]
    exact eq_of_beq hc
  · rintro rfl
    exact c2s_s2c v

theorem s2c_injective {v w : Symbol} (h : s2c v = s2c w) : v = w := by
  have hw := c2s_s2c w
  rw [← h, c2s_s2c] at hw
  exact Option.some.inj hw

/-- The document's bit numbering in terms of the plain one (R8). -/
theorem ubit_of_lt (u : UUID) {k : Nat} (h : k < 128) : ubit u k = u.getLsbD (127 - k) := by
  simp [ubit, BitVec.getMsbD, h]

/-- Past the value's 128 bits the sequence is 0 (R45). -/
theorem ubit_of_ge (u : UUID) {k : Nat} (h : 128 ≤ k) : ubit u k = false := by
  simp [ubit, BitVec.getMsbD, Nat.not_lt.mpr h]

/-- The bits of `PACK` (R80): the last four bit-slots are zero and the others are the value's bits. -/
theorem pack_getLsbD (u : UUID) (i j : Nat) (hi : i < 22) (hj : j < 6) :
    ((pack u)[i]).getLsbD j = if 126 - 6 * i + j < 4 then false else u.getLsbD (126 - 6 * i + j - 4) := by
  simp only [pack, Vector.getElem_ofFn]
  rw [BitVec.getLsbD_extractLsb', BitVec.getLsbD_append]
  by_cases h : 126 - 6 * i + j < 4 <;> simp [hj, h]

/-- Symbol `i` of `PACK` is document bits `6i` to `6i+5` (R45, R81). -/
theorem pack_getMsbD (u : UUID) (i b : Nat) (hi : i < 22) (hb : b < 6) :
    ((pack u)[i]).getMsbD b = ubit u (6 * i + b) := by
  rw [BitVec.getMsbD, pack_getLsbD u i _ hi (by omega)]
  rcases Nat.lt_or_ge (6 * i + b) 128 with h | h
  · rw [ubit_of_lt u h, if_neg (by omega)]
    simp only [hb, decide_true, Bool.true_and]
    congr 1
    omega
  · rw [ubit_of_ge u h, if_pos (by omega)]
    simp

/-- The bits of `UNPACK` (R84): bit `k` comes from slot `k + 4` of the 132. -/
theorem unpack_getLsbD (sym : SymVec) (k : Nat) (hk : k < 128) :
    (unpack sym).getLsbD k = (sym[21 - (4 + k) / 6]'(by omega)).getLsbD ((4 + k) % 6) := by
  have h := concatBE_getLsbD (N := 132) (by decide) sym.toList (by simp) (4 + k) (by simp; omega)
  rw [List.getD_eq_getElem _ _ (by simp; omega)] at h
  rw [unpack, BitVec.getLsbD_extractLsb', h]
  simp [hk]

/-- Character `i` of the slug of a value (R90). -/
@[simp] theorem slugOf_getElem (u : UUID) (i : Nat) (hi : i < 22) : (slugOf u)[i] = s2c (pack u)[i] := by
  simp [slugOf]

/-- The symbols of a string of alphabet characters, and of no other (R91). -/
theorem symbolsOf_eq_some_iff (chr : Slug) (sym : SymVec) :
    symbolsOf chr = some sym ↔ ∀ (i : Nat) (hi : i < 22), chr[i] = s2c sym[i] := by
  unfold symbolsOf
  constructor
  · intro h i hi
    split at h
    · next hall =>
      obtain ⟨v, hv⟩ := Option.isSome_iff_exists.mp (hall ⟨i, hi⟩)
      have hv' : c2s chr[i] = some v := hv
      have he : sym[i] = v := by
        rw [← Option.some.inj h]
        simp [hv']
      rw [he, (c2s_eq_some_iff _ _).mp hv']
    · exact absurd h (by simp)
  · intro h
    have hc : ∀ (i : Nat) (hi : i < 22), c2s chr[i] = some sym[i] := fun i hi => by rw [h i hi, c2s_s2c]
    have hall : ∀ i : Fin 22, (c2s chr[i.val]).isSome := fun i => by rw [hc i.val i.isLt]; rfl
    have hsym : Vector.ofFn (fun i : Fin 22 => (c2s chr[i.val]).getD 0#6) = sym :=
      Vector.ext fun i hi => by rw [Vector.getElem_ofFn, hc i hi, Option.getD_some]
    rw [if_pos hall, hsym]

/-- The symbols of a slug are those it was made of (R73, R90). -/
@[simp] theorem symbolsOf_slugOf (u : UUID) : symbolsOf (slugOf u) = some (pack u) :=
  (symbolsOf_eq_some_iff _ _).mpr fun i hi => slugOf_getElem u i hi

/-- No symbols exactly when some lane is outside the alphabet (R122). -/
theorem symbolsOf_eq_none_iff (chr : Slug) : symbolsOf chr = none ↔ ∃ i : Fin 22, c2s chr[i.val] = none := by
  unfold symbolsOf
  split
  · next h => simpa [Option.isSome_iff_ne_none] using h
  · next h => simpa using h

/-- The bits of `STAMP` (R101). -/
theorem stamp_getLsbD (r : UUID) (k : Nat) :
    (stamp r).getLsbD k =
      if k < 62 then r.getLsbD k
      else if k < 64 then (0b10#2).getLsbD (k - 62)
      else if k < 76 then r.getLsbD k
      else if k < 80 then (0b0100#4).getLsbD (k - 76)
      else r.getLsbD k := by
  have h : (stamp r).getLsbD k =
      (r.extractLsb' 80 48 ++ 0b0100#4 ++ r.extractLsb' 64 12 ++ 0b10#2 ++ r.extractLsb' 0 62).getLsbD k := rfl
  rw [h]
  simp only [BitVec.getLsbD_append, BitVec.getLsbD_extractLsb']
  by_cases h62 : k < 62
  · simp [h62]
  by_cases h64 : k < 64
  · have : k - 62 < 2 := by omega
    simp [h62, h64, this]
  by_cases h76 : k < 76
  · have a : ¬ k - 62 < 2 := by omega
    have b : k - 62 - 2 < 12 := by omega
    have e : 64 + (k - 62 - 2) = k := by omega
    simp [h62, h64, h76, a, b, e]
  by_cases h80 : k < 80
  · have a : ¬ k - 62 < 2 := by omega
    have b : ¬ k - 62 - 2 < 12 := by omega
    have c : k - 62 - 2 - 12 < 4 := by omega
    have e : k - 62 - 2 - 12 = k - 76 := by omega
    have c' : k - 76 < 4 := by omega
    simp [h62, h64, h76, h80, a, b, e, c']
  · have a : ¬ k - 62 < 2 := by omega
    have b : ¬ k - 62 - 2 < 12 := by omega
    have c : ¬ k - 62 - 2 - 12 < 4 := by omega
    have e : 80 + (k - 62 - 2 - 12 - 4) = k := by omega
    rcases Nat.lt_or_ge k 128 with hk | hk
    · have d : k - 62 - 2 - 12 - 4 < 48 := by omega
      simp only [h62, h64, h76, h80, a, b, c, d, e, if_false]
      simp
    · have d : ¬ k - 62 - 2 - 12 - 4 < 48 := by omega
      simp only [h62, h64, h76, h80, a, b, c, d, e, if_false]
      simp [BitVec.getLsbD_of_ge r k hk]

/-- The bits of `NICE` (R103). -/
theorem nice_getLsbD (u : UUID) (k : Nat) : (nice u).getLsbD k = (decide (k < 127) && u.getLsbD k) := by
  have h : (nice u).getLsbD k = (0#1 ++ u.extractLsb' 0 127).getLsbD k := rfl
  rw [h, BitVec.getLsbD_append, BitVec.getLsbD_extractLsb']
  by_cases h127 : k < 127 <;> simp [h127]

/-- The low 128 bits of a UUID's data layout are the UUID (R60). -/
@[simp] theorem Result.data_uuid_low (free : Bus) (u : UUID) :
    ((Result.uuid u).data free).extractLsb' 0 128 = u := by
  apply BitVec.eq_of_getLsbD_eq
  intro k hk
  have h : ((Result.uuid u).data free).getLsbD k = (free.extractLsb' 128 48 ++ u).getLsbD k := rfl
  rw [BitVec.getLsbD_extractLsb', Nat.zero_add, h, BitVec.getLsbD_append]
  simp [hk]

/-- The lanes of a slug's data layout are the slug (R59). -/
@[simp] theorem Result.data_slug_lanes (free : Bus) (chr : Slug) : lanes ((Result.slug chr).data free) = chr :=
  lanes_ofLanes chr

/-- The alphabet is what the search finds (R72). -/
theorem mem_alpha_iff (c : Code) : c ∈ alpha ↔ ∃ v : Symbol, s2c v = c := by
  constructor
  · intro h
    obtain ⟨n, hlt, hc⟩ := List.getElem_of_mem h
    have h64 : n < 2 ^ 6 := hlt
    refine ⟨BitVec.ofNat 6 n, ?_⟩
    rw [s2c, BitVec.toNat_ofNat, Nat.mod_eq_of_lt h64, List.getD_eq_getElem _ _ hlt]
    exact hc
  · rintro ⟨v, rfl⟩
    have hlt : v.toNat < alpha.length := v.isLt
    rw [s2c, List.getD_eq_getElem _ _ hlt]
    exact List.getElem_mem hlt

end Sys2Proof.Machine
end

