-- ==== Sys2Proof/Laws/PerInstr.lean ====
section
/-! SUPPORT. Laws of the commands as syntax, one lemma per constructor. -/

namespace Sys2Proof.Laws.TableRow

/-- The opcode-table row of a command: its `match` under its `mask` 0x3 (spec/opcode_table.json, R52). -/
def rowMatch : Instr → CommandWord
  | .encode _ _ _ => 0x0#186
  | .decode _ _ => 0x1#186
  | .randv4 _ _ => 0x2#186
  | .randnice _ _ => 0x3#186

/-- The command is legal, its word lies in its own row of the opcode table, and no operand touches the row's bits. -/
def Statement (i : Instr) : Prop := i.wellFormed = true ∧ encodeWord i &&& 0x3#186 = rowMatch i

theorem mask_commandWord (data : Bus) (len : BitVec 8) (op : BitVec 2) :
    commandWord data len op &&& 0x3#186 = op.setWidth 186 := by
  apply BitVec.eq_of_getLsbD_eq
  intro k hk
  have h3 : (0x3#186).getLsbD k = decide (k < 2) := by
    rcases Nat.lt_or_ge k 2 with h | h
    · have : k = 0 ∨ k = 1 := by omega
      rcases this with rfl | rfl <;> rfl
    · have : (0x3#186) = (0x3#2).setWidth 186 := rfl
      rw [this, BitVec.getLsbD_setWidth, BitVec.getLsbD_of_ge _ _ h]
      simp [Nat.not_lt.mpr h]
  rw [BitVec.getLsbD_and, commandWord_getLsbD, h3, BitVec.getLsbD_setWidth]
  rcases Nat.lt_or_ge k 2 with h | h
  · simp [h, hk]
  · simp [Nat.not_lt.mpr h, BitVec.getLsbD_of_ge op k h]

theorem encode (len : BitVec 8) (hi : BitVec 48) (u : UUID) : Statement (.encode len hi u) :=
  ⟨rfl, mask_commandWord _ _ _⟩

theorem decode (len : BitVec 8) (chr : Slug) : Statement (.decode len chr) := ⟨rfl, mask_commandWord _ _ _⟩

theorem randv4 (len : BitVec 8) (data : Bus) : Statement (.randv4 len data) := ⟨rfl, mask_commandWord _ _ _⟩

theorem randnice (len : BitVec 8) (data : Bus) : Statement (.randnice len data) := ⟨rfl, mask_commandWord _ _ _⟩

end Sys2Proof.Laws.TableRow
end

