-- ==== Sys2Proof/Laws/State.lean ====
section
/-! SUPPORT. What each update of State does to each field: one lemma per field per update, each true by rfl. -/

namespace Sys2Proof.Machine

variable (s : State)

/-! `respond`, R37: the three response elements, the sticky `HALT`, the end of a wait. -/

@[simp] theorem State.respond_halt (r : Result) : (s.respond r).halt = (s.halt || r.halts) := rfl
@[simp] theorem State.respond_rspValid (r : Result) : (s.respond r).rspValid = true := rfl
@[simp] theorem State.respond_rspStatus (r : Result) : (s.respond r).rspStatus = r.status := rfl
@[simp] theorem State.respond_rspData (r : Result) : (s.respond r).rspData = r.data (Config.freeRspData s.occasion) := rfl
@[simp] theorem State.respond_inFlight (r : Result) : (s.respond r).inFlight = none := rfl
@[simp] theorem State.respond_owed (r : Result) : (s.respond r).owed = s.owed := rfl
@[simp] theorem State.respond_moves (r : Result) : (s.respond r).moves = s.moves := rfl
@[simp] theorem State.respond_occasion (r : Result) : (s.respond r).occasion = s.occasion + 1 := rfl

/-! Taking an exception, R127. -/

@[simp] theorem State.raise_halt (e : Exc) : (s.raise e).halt = (s.halt || (Result.error e).halts) := rfl
@[simp] theorem State.raise_rspValid (e : Exc) : (s.raise e).rspValid = true := rfl
@[simp] theorem State.raise_rspStatus (e : Exc) : (s.raise e).rspStatus = e.code := rfl
@[simp] theorem State.raise_rspData (e : Exc) : (s.raise e).rspData = Config.freeRspData s.occasion := rfl
@[simp] theorem State.raise_inFlight (e : Exc) : (s.raise e).inFlight = none := rfl
@[simp] theorem State.raise_owed (e : Exc) : (s.raise e).owed = s.owed := rfl
@[simp] theorem State.raise_moves (e : Exc) : (s.raise e).moves = s.moves := rfl
@[simp] theorem State.raise_occasion (e : Exc) : (s.raise e).occasion = s.occasion + 1 := rfl

/-! `take`, R38: `RSP_VALID` and nothing else. -/

@[simp] theorem State.take_halt : (s.take).halt = s.halt := rfl
@[simp] theorem State.take_rspValid : (s.take).rspValid = false := rfl
@[simp] theorem State.take_rspStatus : (s.take).rspStatus = s.rspStatus := rfl
@[simp] theorem State.take_rspData : (s.take).rspData = s.rspData := rfl
@[simp] theorem State.take_inFlight : (s.take).inFlight = s.inFlight := rfl
@[simp] theorem State.take_owed : (s.take).owed = s.owed := rfl
@[simp] theorem State.take_moves : (s.take).moves = s.moves := rfl
@[simp] theorem State.take_occasion : (s.take).occasion = s.occasion := rfl

/-! `reset`, R39, R36, R141. -/

@[simp] theorem State.applyReset_halt : (s.applyReset).halt = false := rfl
@[simp] theorem State.applyReset_rspValid : (s.applyReset).rspValid = false := rfl
@[simp] theorem State.applyReset_rspStatus : (s.applyReset).rspStatus = Config.freeRspStatus s.occasion := rfl
@[simp] theorem State.applyReset_rspData : (s.applyReset).rspData = Config.freeRspData s.occasion := rfl
@[simp] theorem State.applyReset_inFlight : (s.applyReset).inFlight = none := rfl
@[simp] theorem State.applyReset_owed : (s.applyReset).owed = s.owed + (if s.inFlight.isSome then 1 else 0) := rfl
@[simp] theorem State.applyReset_moves : (s.applyReset).moves = s.moves := rfl
@[simp] theorem State.applyReset_occasion : (s.applyReset).occasion = s.occasion + 1 := rfl

/-! The wait for a draw, R35. -/

@[simp] theorem State.suspend_halt (g : Generator) : (s.suspend g).halt = s.halt := rfl
@[simp] theorem State.suspend_rspValid (g : Generator) : (s.suspend g).rspValid = s.rspValid := rfl
@[simp] theorem State.suspend_rspStatus (g : Generator) : (s.suspend g).rspStatus = s.rspStatus := rfl
@[simp] theorem State.suspend_rspData (g : Generator) : (s.suspend g).rspData = s.rspData := rfl
@[simp] theorem State.suspend_inFlight (g : Generator) : (s.suspend g).inFlight = some g := rfl
@[simp] theorem State.suspend_owed (g : Generator) : (s.suspend g).owed = s.owed := rfl
@[simp] theorem State.suspend_moves (g : Generator) : (s.suspend g).moves = s.moves := rfl
@[simp] theorem State.suspend_occasion (g : Generator) : (s.suspend g).occasion = s.occasion := rfl

/-! The end of a step. -/

@[simp] theorem State.advance_halt : (s.advance).halt = s.halt := rfl
@[simp] theorem State.advance_rspValid : (s.advance).rspValid = s.rspValid := rfl
@[simp] theorem State.advance_rspStatus : (s.advance).rspStatus = s.rspStatus := rfl
@[simp] theorem State.advance_rspData : (s.advance).rspData = s.rspData := rfl
@[simp] theorem State.advance_inFlight : (s.advance).inFlight = s.inFlight := rfl
@[simp] theorem State.advance_owed : (s.advance).owed = s.owed - (if s.now.answer.isSome then 1 else 0) := rfl
@[simp] theorem State.advance_moves : (s.advance).moves = s.moves.tail := rfl
@[simp] theorem State.advance_occasion : (s.advance).occasion = s.occasion := rfl

/-! A command presented at this step. -/

@[simp] theorem State.presenting_halt (cw : CommandWord) : (s.presenting cw).halt = s.halt := rfl
@[simp] theorem State.presenting_rspValid (cw : CommandWord) : (s.presenting cw).rspValid = s.rspValid := rfl
@[simp] theorem State.presenting_rspStatus (cw : CommandWord) : (s.presenting cw).rspStatus = s.rspStatus := rfl
@[simp] theorem State.presenting_rspData (cw : CommandWord) : (s.presenting cw).rspData = s.rspData := rfl
@[simp] theorem State.presenting_inFlight (cw : CommandWord) : (s.presenting cw).inFlight = s.inFlight := rfl
@[simp] theorem State.presenting_owed (cw : CommandWord) : (s.presenting cw).owed = s.owed := rfl
@[simp] theorem State.presenting_moves (cw : CommandWord) : (s.presenting cw).moves = s.now.present cw :: s.moves.tail := rfl
@[simp] theorem State.presenting_occasion (cw : CommandWord) : (s.presenting cw).occasion = s.occasion := rfl

/-! What a step reads from outside is untouched by what the core writes. -/

@[simp] theorem State.respond_now (r : Result) : (s.respond r).now = s.now := rfl
@[simp] theorem State.raise_now (e : Exc) : (s.raise e).now = s.now := rfl
@[simp] theorem State.take_now : (s.take).now = s.now := rfl
@[simp] theorem State.applyReset_now : (s.applyReset).now = s.now := rfl
@[simp] theorem State.suspend_now (g : Generator) : (s.suspend g).now = s.now := rfl
@[simp] theorem State.presenting_now (cw : CommandWord) : (s.presenting cw).now = s.now.present cw := rfl

end Sys2Proof.Machine
end

