-- ==== Sys2Proof/Laws/Step.lean ====
section
/-! SUPPORT. What each shared operation, each meaning and the step can do, said once: the cases and their guards. -/

namespace Sys2Proof.Machine

/-- The acceptance condition, element by element (R33). -/
theorem State.ready_iff (s : State) : s.ready = true ↔ s.halt = false ∧ s.rspValid = false ∧ s.inFlight = none := by
  simp [State.ready, and_assoc]

/-- When a generator command is accepted (R33, R52). -/
theorem State.acceptsGenerator_iff (s : State) :
    s.acceptsGenerator = true ↔
      s.now.rst = false ∧ s.ready = true ∧ s.now.cmdValid = true ∧ (s.now.cmdOp = 2#2 ∨ s.now.cmdOp = 3#2) := by
  simp [State.acceptsGenerator, and_assoc]

/-- When `ent_req` is 1 (R35, R140): a command in flight, or a generator command being accepted. -/
theorem State.entReq_iff (s : State) :
    s.outputs.entReq = true ↔ s.now.rst = false ∧ (s.inFlight.isSome = true ∨ s.acceptsGenerator = true) := by
  simp [State.outputs]

/-- An answer is stray exactly when no late one is owed and no request stands (U7). -/
theorem State.strayAnswer_iff (s : State) :
    s.strayAnswer = true ↔ s.now.answer.isSome = true ∧ s.owed = 0 ∧ s.outputs.entReq = false := by
  simp [State.strayAnswer, and_assoc]

/-- A standing request's answer is no stray one (R146 (1)). -/
theorem State.not_strayAnswer_of_entReq {s : State} (h : s.outputs.entReq = true) : s.strayAnswer = false := by
  simp [State.strayAnswer, h]

/-- While a response waits or the core is halted no generator command is accepted (R22, R23). -/
theorem State.acceptsGenerator_of_not_ready {s : State} (h : s.ready = false) : s.acceptsGenerator = false := by
  simp [State.acceptsGenerator, h]

theorem State.whenReady_of_ready {s : State} (h : s.ready = true) (f : State → State) :
    s.whenReady f = .next (f s) := by
  simp [State.whenReady, h]

theorem State.whenReady_of_not_ready {s : State} (h : s.ready = false) (f : State → State) :
    s.whenReady f = .next s := by
  simp [State.whenReady, h]

/-- Status 3 is the status of the one result that halts (R58, R120). -/
theorem Result.status_eq_three_iff (r : Result) : r.status = 3#2 ↔ r.halts = true := by
  rcases r with chr | u | (_ | _ | _) <;> simp [Result.status, Result.halts, Exc.code]

/-! The end of `DECODE` (R91), by the length and the lanes. -/

theorem State.decodeString_of_len_ne (s : State) {len : BitVec 8} (chr : Slug) (h : len ≠ 22#8) :
    s.decodeString len chr = s.raise .invalidLength := by
  simp [State.decodeString, h]

theorem State.decodeString_of_invalid (s : State) {chr : Slug} (h : symbolsOf chr = none) :
    s.decodeString 22#8 chr = s.raise .invalidCharacter := by
  simp [State.decodeString, h]

theorem State.decodeString_of_valid (s : State) {chr : Slug} {sym : SymVec} (h : symbolsOf chr = some sym) :
    s.decodeString 22#8 chr = s.respond (.uuid (unpack sym)) := by
  simp [State.decodeString, h]

/-- Every end of `DECODE` is a response, and none halts. -/
theorem State.decodeString_cases (s : State) (len : BitVec 8) (chr : Slug) :
    ∃ r : Result, r.halts = false ∧ s.decodeString len chr = s.respond r := by
  unfold State.decodeString
  split
  · exact ⟨.error .invalidLength, rfl, rfl⟩
  · split
    · exact ⟨.error .invalidCharacter, rfl, rfl⟩
    · next sym _ => exact ⟨.uuid (unpack sym), rfl, rfl⟩

/-! A generator command (R105, R106), by the answer of the source. -/

theorem State.generate_of_no_answer {s : State} (h : s.draw = none) (g : Generator) :
    s.generate g = s.suspend g := by
  simp [State.generate, State.await, h]

theorem State.generate_of_fail {s : State} (h : s.draw = some .fail) (g : Generator) :
    s.generate g = s.raise .entropyFailure := by
  simp [State.generate, State.await, h, State.finish]

theorem State.generate_of_ok {s : State} {r : UUID} (h : s.draw = some (.ok r)) (g : Generator) :
    s.generate g = s.respond (.slug (slugOf (g.shape r))) := by
  simp [State.generate, State.await, h, State.finish]

/-- A generator command waits for its draw or writes its response. -/
theorem State.generate_cases (s : State) (g : Generator) :
    (s.draw = none ∧ s.generate g = s.suspend g) ∨
    (∃ r : Result, s.draw.isSome = true ∧ s.generate g = s.respond r) := by
  rcases h : s.draw with _ | r | _
  · exact .inl ⟨rfl, State.generate_of_no_answer h g⟩
  · exact .inr ⟨_, rfl, State.generate_of_ok h g⟩
  · exact .inr ⟨_, rfl, State.generate_of_fail h g⟩

/-! A command that the core accepts, as one of the operations above. -/

theorem exec_encode_of_ready {s : State} (h : s.ready = true) (len : BitVec 8) (hi : BitVec 48) (u : UUID) :
    exec (.encode len hi u) s = .next (s.respond (.slug (slugOf u))) := by
  simp [exec, execEncode, State.whenReady_of_ready h, State.encodeValue]

theorem exec_decode_of_ready {s : State} (h : s.ready = true) (len : BitVec 8) (chr : Slug) :
    exec (.decode len chr) s = .next (s.decodeString len chr) := by
  simp [exec, execDecode, State.whenReady_of_ready h]

theorem exec_randv4_of_ready {s : State} (h : s.ready = true) (len : BitVec 8) (data : Bus) :
    exec (.randv4 len data) s = .next (s.generate .randv4) := by
  simp [exec, execRandv4, State.whenReady_of_ready h]

theorem exec_randnice_of_ready {s : State} (h : s.ready = true) (len : BitVec 8) (data : Bus) :
    exec (.randnice len data) s = .next (s.generate .randnice) := by
  simp [exec, execRandnice, State.whenReady_of_ready h]

/-- An accepted generator command begins to ask for its draw at the accepting step itself (R35, R37). -/
theorem act_of_acceptsGenerator {s : State} (h : s.acceptsGenerator = true) :
    ∃ g : Generator, act s = .next (s.generate g) := by
  obtain ⟨-, hr, hc, hop⟩ := s.acceptsGenerator_iff.mp h
  obtain ⟨-, hv, hf⟩ := s.ready_iff.mp hr
  have hw : CommandWord.op s.now.cw = s.now.cmdOp := by simp [Inputs.cw]
  simp only [act, hv, hf, hc, decodeWord, hw]
  rcases hop with hop | hop
  · exact ⟨.randv4, by simpa [hop] using exec_randv4_of_ready hr _ _⟩
  · exact ⟨.randnice, by simpa [hop] using exec_randnice_of_ready hr _ _⟩

/-- What a command can do: nothing where the core is not ready, else respond, or wait for its draw. -/
theorem exec_cases (i : Instr) (s : State) :
    (s.ready = false ∧ exec i s = .next s) ∨
    (s.ready = true ∧ ∃ r : Result, exec i s = .next (s.respond r)) ∨
    (s.ready = true ∧ s.draw = none ∧ ∃ g : Generator, exec i s = .next (s.suspend g)) := by
  rcases hr : s.ready with _ | _
  · refine .inl ⟨rfl, ?_⟩
    cases i <;> simp [exec, execEncode, execDecode, execRandv4, execRandnice, State.whenReady_of_not_ready hr]
  · refine .inr ?_
    have hgen : ∀ g : Generator, (∃ r : Result, s.generate g = s.respond r) ∨
        (s.draw = none ∧ ∃ g' : Generator, s.generate g = s.suspend g') := by
      intro g
      rcases s.generate_cases g with ⟨hd, h⟩ | ⟨r, -, h⟩
      · exact .inr ⟨hd, g, h⟩
      · exact .inl ⟨r, h⟩
    cases i with
    | encode len hi u =>
      exact .inl ⟨rfl, .slug (slugOf u), by simp [exec, execEncode, State.whenReady_of_ready hr, State.encodeValue]⟩
    | decode len chr =>
      obtain ⟨r, -, h⟩ := s.decodeString_cases len chr
      exact .inl ⟨rfl, r, by simp [exec, execDecode, State.whenReady_of_ready hr, h]⟩
    | randv4 len data =>
      simp only [exec, execRandv4, State.whenReady_of_ready hr]
      rcases hgen .randv4 with ⟨r, h⟩ | ⟨hd, g, h⟩
      · exact .inl ⟨trivial, r, by rw [h]⟩
      · exact .inr ⟨trivial, hd, g, by rw [h]⟩
    | randnice len data =>
      simp only [exec, execRandnice, State.whenReady_of_ready hr]
      rcases hgen .randnice with ⟨r, h⟩ | ⟨hd, g, h⟩
      · exact .inl ⟨trivial, r, by rw [h]⟩
      · exact .inr ⟨trivial, hd, g, by rw [h]⟩

/-- What the core can do at a step without reset: take, hold, respond, wait for a draw, or nothing. -/
theorem act_cases (s : State) :
    (s.rspValid = true ∧ s.now.rspReady = true ∧ act s = .next s.take) ∨
    (s.rspValid = true ∧ s.now.rspReady = false ∧ act s = .next s) ∨
    (s.rspValid = false ∧ (s.inFlight.isSome = true ∨ (s.ready = true ∧ s.now.cmdValid = true)) ∧
      ∃ r : Result, act s = .next (s.respond r)) ∨
    (s.rspValid = false ∧ (s.inFlight.isSome = true ∨ (s.ready = true ∧ s.now.cmdValid = true)) ∧
      s.draw = none ∧ ∃ g : Generator, act s = .next (s.suspend g)) ∨
    (s.rspValid = false ∧ s.inFlight = none ∧ (s.now.cmdValid = false ∨ s.halt = true) ∧ act s = .next s) := by
  unfold act
  rcases hv : s.rspValid with _ | _
  · refine .inr (.inr ?_)
    rcases hf : s.inFlight with _ | g
    · rcases hc : s.now.cmdValid with _ | _
      · exact .inr (.inr ⟨rfl, rfl, .inl rfl, by simp⟩)
      · rcases exec_cases (decodeWord s.now.cw) s with ⟨hr, h⟩ | ⟨hr, r, h⟩ | ⟨hr, hd, g, h⟩
        · have hh : s.halt = true := by simpa [State.ready, hv, hf] using hr
          exact .inr (.inr ⟨rfl, rfl, .inr hh, by simp [h]⟩)
        · exact .inl ⟨rfl, .inr ⟨hr, rfl⟩, r, by simp [h]⟩
        · exact .inr (.inl ⟨rfl, .inr ⟨hr, rfl⟩, hd, g, by simp [h]⟩)
    · rcases s.generate_cases g with ⟨hd, h⟩ | ⟨r, -, h⟩
      · exact .inr (.inl ⟨rfl, .inl rfl, hd, g, by simp [h]⟩)
      · exact .inl ⟨rfl, .inl rfl, r, by simp [h]⟩
  · rcases hr : s.now.rspReady with _ | _
    · exact .inr (.inl ⟨rfl, rfl, by simp⟩)
    · exact .inl ⟨rfl, rfl, by simp⟩

/-- Without reset the core always goes on. -/
theorem act_total (s : State) : ∃ t, act s = .next t := by
  rcases act_cases s with ⟨-, -, h⟩ | ⟨-, -, h⟩ | ⟨-, -, r, h⟩ | ⟨-, -, -, g, h⟩ | ⟨-, -, -, h⟩ <;> exact ⟨_, h⟩

theorem step_of_rst {s : State} (h : s.now.rst = true) : step s = .next s.applyReset.advance := by
  simp [step, transition, h]

theorem step_of_stray {s : State} (h : s.now.rst = false) (hs : s.strayAnswer = true) :
    step s = .refused .answerWithoutRequest := by
  simp [step, transition, h, hs]

theorem step_of_act {s t : State} (h : s.now.rst = false) (hs : s.strayAnswer = false) (ht : act s = .next t) :
    step s = .next t.advance := by
  simp [step, transition, h, hs, ht, advanceOutcome]

/-- Every step uses up one move of the outside agents. -/
theorem step_moves {s t : State} (h : step s = .next t) : t.moves = s.moves.tail := by
  rcases hr : s.now.rst with _ | _
  · rcases hs : s.strayAnswer with _ | _
    · rcases act_cases s with ⟨-, -, ha⟩ | ⟨-, -, ha⟩ | ⟨-, -, r, ha⟩ | ⟨-, -, -, g, ha⟩ | ⟨-, -, -, ha⟩ <;>
        (rw [step_of_act hr hs ha] at h; cases h; rfl)
    · rw [step_of_stray hr hs] at h
      exact absurd h (by simp)
  · rw [step_of_rst hr] at h
    cases h
    rfl

/-- What a step that gives a next state was: a reset, or an act of the core, and then the end of the step. -/
theorem step_cases {s t : State} (h : step s = .next t) :
    (s.now.rst = true ∧ t = s.applyReset.advance) ∨
    (s.now.rst = false ∧ s.strayAnswer = false ∧ ∃ t', act s = .next t' ∧ t = t'.advance) := by
  rcases hr : s.now.rst with _ | _
  · rcases hs : s.strayAnswer with _ | _
    · obtain ⟨t', ht'⟩ := act_total s
      rw [step_of_act hr hs ht'] at h
      exact .inr ⟨rfl, rfl, t', ht', (Host.Outcome.next.inj h).symm⟩
    · rw [step_of_stray hr hs] at h
      exact absurd h (by simp)
  · rw [step_of_rst hr] at h
    exact .inl ⟨rfl, (Host.Outcome.next.inj h).symm⟩

end Sys2Proof.Machine
end

