-- ==== Sys2Proof/Laws/Run.lean ====
section
/-! SUPPORT. Runs, one step at a time, and facts about the outside agents' moves along them. -/

namespace Sys2Proof.Machine

theorem run_zero (s : State) : Sys2Proof.core.run 0 s = .next s := rfl

/-- The host's run, one step on. -/
theorem core_run_succ (M : Host.Core) (k : Nat) (s : M.State) :
    M.run (k + 1) s =
      match M.step s with
      | .next s' => M.run k s'
      | .fault r => .fault r
      | .refused r => .refused r := rfl

theorem run_succ_of_next {s t : State} (h : step s = .next t) (k : Nat) :
    Sys2Proof.core.run (k + 1) s = Sys2Proof.core.run k t := by
  have hc : Sys2Proof.core.step s = .next t := h
  have hrun := core_run_succ Sys2Proof.core k s
  rw [hc] at hrun
  exact hrun

theorem run_succ_of_refused {s : State} {r : Refusal} (h : step s = .refused r) (k : Nat) :
    Sys2Proof.core.run (k + 1) s = .refused r := by
  have hc : Sys2Proof.core.step s = .refused r := h
  have hrun := core_run_succ Sys2Proof.core k s
  rw [hc] at hrun
  exact hrun

/-- A run of `k + 1` steps that goes on is one step and a run of `k`. -/
theorem run_succ_cases {s t : State} {k : Nat} (h : Sys2Proof.core.run (k + 1) s = .next t) :
    ∃ s', step s = .next s' ∧ Sys2Proof.core.run k s' = .next t := by
  rcases hs : step s with s' | r | r
  · exact ⟨s', rfl, by rw [← run_succ_of_next hs, h]⟩
  · cases r
  · rw [run_succ_of_refused hs] at h
    exact absurd h (by simp)

theorem acceptedIn_succ_of_next {s t : State} (h : step s = .next t) (k : Nat) :
    State.acceptedIn (k + 1) s = s.accepted.toList ++ State.acceptedIn k t := by
  simp [State.acceptedIn, h]

theorem takenIn_succ_of_next {s t : State} (h : step s = .next t) (k : Nat) :
    State.takenIn (k + 1) s = s.taken.toList ++ State.takenIn k t := by
  simp [State.takenIn, h]

theorem answersIn_succ_of_next {s t : State} (h : step s = .next t) (k : Nat) :
    State.answersIn (k + 1) s = s.requestAnswered.toList ++ State.answersIn k t := by
  simp [State.answersIn, h]

theorem presentedIn_succ_of_next {s t : State} (h : step s = .next t) (k : Nat) :
    State.presentedIn (k + 1) s = s.presented.toList ++ State.presentedIn k t := by
  simp [State.presentedIn, h]

/-- A run of `k + j` steps is a run of `k`, if that one goes on, and then one of `j`; and so for its three records. -/
theorem run_add {k j : Nat} {s t : State} (h : Sys2Proof.core.run k s = .next t) :
    Sys2Proof.core.run (k + j) s = Sys2Proof.core.run j t ∧
    State.acceptedIn (k + j) s = State.acceptedIn k s ++ State.acceptedIn j t ∧
    State.takenIn (k + j) s = State.takenIn k s ++ State.takenIn j t ∧
    State.presentedIn (k + j) s = State.presentedIn k s ++ State.presentedIn j t := by
  induction k generalizing s with
  | zero =>
    rw [run_zero] at h
    cases h
    rw [Nat.zero_add]
    exact ⟨rfl, rfl, rfl, rfl⟩
  | succ k ih =>
    obtain ⟨s', hs, hr⟩ := run_succ_cases h
    obtain ⟨h1, h2, h3, h4⟩ := ih hr
    rw [Nat.succ_add]
    refine ⟨by rw [run_succ_of_next hs, h1], ?_, ?_, ?_⟩
    · rw [acceptedIn_succ_of_next hs, acceptedIn_succ_of_next hs, h2, List.append_assoc]
    · rw [takenIn_succ_of_next hs, takenIn_succ_of_next hs, h3, List.append_assoc]
    · rw [presentedIn_succ_of_next hs, presentedIn_succ_of_next hs, h4, List.append_assoc]

/-- A run of `k` steps uses up `k` moves of the outside agents. -/
theorem run_moves {k : Nat} {s t : State} (h : Sys2Proof.core.run k s = .next t) : t.moves = s.moves.drop k := by
  induction k generalizing s with
  | zero =>
    rw [run_zero] at h
    cases h
    rfl
  | succ k ih =>
    obtain ⟨s', hs, hr⟩ := run_succ_cases h
    rw [ih hr, step_moves hs, ← List.drop_one, List.drop_drop, Nat.add_comm]

/-- What holds of every coming move, and of quiet ports, holds of the move at this step. -/
theorem State.now_of_all {P : Inputs → Prop} {s : State} (h : ∀ p ∈ s.moves, P p) (hq : P .quiet) : P s.now := by
  rcases hm : s.moves with _ | ⟨p, ps⟩
  · simpa [State.now, hm]
  · have hp : P p := h p (by simp [hm])
    simpa [State.now, hm]

/-- The same for the first `k + 1` moves. -/
theorem State.now_of_take {P : Inputs → Prop} {s : State} {k : Nat} (h : ∀ p ∈ s.moves.take (k + 1), P p)
    (hq : P .quiet) : P s.now := by
  rcases hm : s.moves with _ | ⟨p, ps⟩
  · simpa [State.now, hm]
  · have hp : P p := h p (by simp [hm])
    simpa [State.now, hm]

theorem moves_of_all {P : Inputs → Prop} {s t : State} (h : ∀ p ∈ s.moves, P p) (hst : step s = .next t) :
    ∀ p ∈ t.moves, P p := by
  rw [step_moves hst]
  exact fun p hp => h p (List.mem_of_mem_tail hp)

theorem moves_of_take {P : Inputs → Prop} {s t : State} {k : Nat} (h : ∀ p ∈ s.moves.take (k + 1), P p)
    (hst : step s = .next t) : ∀ p ∈ t.moves.take k, P p := by
  rw [step_moves hst]
  rcases hm : s.moves with _ | ⟨p, ps⟩
  · simp
  · intro q hq
    refine h q ?_
    rw [hm, List.take_succ_cons]
    exact List.mem_cons_of_mem _ hq

end Sys2Proof.Machine
end

