-- ==== Sys2Proof/Laws/Safety.lean ====
section
/-! SUPPORT. What the terms of claims are after each update: the response as the host reads it (R59, R60). -/

namespace Sys2Proof.Machine

variable (s : State)

@[simp] theorem State.slugOut_respond (chr : Slug) : (s.respond (.slug chr)).slugOut = chr := by
  simp [State.slugOut]

@[simp] theorem State.uuidOut_respond (u : UUID) : (s.respond (.uuid u)).uuidOut = u := by
  simp [State.uuidOut]

@[simp] theorem State.slugOut_advance : s.advance.slugOut = s.slugOut := by
  simp [State.slugOut]

@[simp] theorem State.uuidOut_advance : s.advance.uuidOut = s.uuidOut := by
  simp [State.uuidOut]

/-! The response word (R57), after each update of its two elements. -/

@[simp] theorem State.rw_respond (r : Result) : (s.respond r).rw = r.data (Config.freeRspData s.occasion) ++ r.status := rfl

@[simp] theorem State.rw_advance : s.advance.rw = s.rw := rfl

@[simp] theorem State.rw_take : s.take.rw = s.rw := rfl

/-- The status of a response word (R57). -/
@[simp] theorem responseWord_status (data : Bus) (status : BitVec 2) : (data ++ status).extractLsb' 0 2 = status := by
  refine BitVec.eq_of_getLsbD_eq fun i hi => ?_
  rw [BitVec.getLsbD_extractLsb', BitVec.getLsbD_append]
  simp [hi]

/-- The UUID in a response word (R57, R60). -/
@[simp] theorem responseWord_uuid (data : Bus) (status : BitVec 2) :
    (data ++ status).extractLsb' 2 128 = data.extractLsb' 0 128 := by
  refine BitVec.eq_of_getLsbD_eq fun i hi => ?_
  rw [BitVec.getLsbD_extractLsb', BitVec.getLsbD_append, BitVec.getLsbD_extractLsb']
  simp only [hi, decide_true, Bool.true_and]
  rw [if_neg (by omega), Nat.add_sub_cancel_left, Nat.zero_add]

/-- What a slug's response reads on the ports (R57, R59). -/
theorem State.rw_respond_slug (chr : Slug) : (s.respond (.slug chr)).rw = ofLanes chr ++ 0#2 := by
  rw [State.rw_respond, Result.data, Result.status]

/-! No answer at this step: the entropy ports of this step and nothing else. -/

@[simp] theorem State.withoutAnswer_halt : s.withoutAnswer.halt = s.halt := rfl
@[simp] theorem State.withoutAnswer_rspValid : s.withoutAnswer.rspValid = s.rspValid := rfl
@[simp] theorem State.withoutAnswer_rspStatus : s.withoutAnswer.rspStatus = s.rspStatus := rfl
@[simp] theorem State.withoutAnswer_rspData : s.withoutAnswer.rspData = s.rspData := rfl
@[simp] theorem State.withoutAnswer_inFlight : s.withoutAnswer.inFlight = s.inFlight := rfl
@[simp] theorem State.withoutAnswer_owed : s.withoutAnswer.owed = s.owed := rfl
@[simp] theorem State.withoutAnswer_occasion : s.withoutAnswer.occasion = s.occasion := rfl
@[simp] theorem State.withoutAnswer_moves :
    s.withoutAnswer.moves = { s.now with entValid := false, entFail := false } :: s.moves.tail := rfl
@[simp] theorem State.withoutAnswer_now :
    s.withoutAnswer.now = { s.now with entValid := false, entFail := false } := rfl

/-- While an answer is owed none is this core's own (R141). -/
theorem State.draw_of_owed {s : State} (h : s.owed ≠ 0) : s.draw = none := by
  simp [State.draw, h]

theorem State.not_strayAnswer_of_owed {s : State} (h : s.owed ≠ 0) : s.strayAnswer = false := by
  simp [State.strayAnswer, h]

/-- Among late answers only, this step's answer, if any, is owed, and the rest are owed after it (R141). -/
theorem State.onlyLateAnswers_now {s : State} (h : s.onlyLateAnswers) :
    (s.now.answer.isSome = true → s.owed ≠ 0) ∧
    s.moves.tail.countP (fun p => p.answer.isSome) ≤ s.owed - (if s.now.answer.isSome then 1 else 0) := by
  unfold State.onlyLateAnswers at h
  rcases hm : s.moves with _ | ⟨p, ps⟩
  · simp [State.now, hm, Inputs.quiet, Inputs.answer]
  · rw [hm, List.countP_cons] at h
    simp only [State.now, hm, List.headD_cons, List.tail_cons]
    split at h <;> simp_all
    omega

/-- Late answers are never stray and never a draw. -/
theorem State.draw_of_onlyLateAnswers {s : State} (h : s.onlyLateAnswers) : s.draw = none ∧ s.strayAnswer = false := by
  rcases ha : s.now.answer with _ | a
  · exact ⟨by simp [State.draw, ha], by simp [State.strayAnswer, ha]⟩
  · have ho := (State.onlyLateAnswers_now h).1 (by simp [ha])
    exact ⟨State.draw_of_owed ho, State.not_strayAnswer_of_owed ho⟩

/-- A syntactically valid slug has its symbols (R16, R91). -/
theorem symbolsOf_of_validSlug {chr : Slug} (h : validSlug chr) : ∃ sym, symbolsOf chr = some sym := by
  rcases hs : symbolsOf chr with _ | sym
  · obtain ⟨i, hi⟩ := (symbolsOf_eq_none_iff _).mp hs
    obtain ⟨v, hv⟩ := (mem_alpha_iff _).mp (h i)
    rw [← hv, c2s_s2c] at hi
    exact absurd hi (by simp)
  · exact ⟨sym, rfl⟩

/-- Every response to a command in flight or just accepted leaves the invariant (R22, R37). -/
theorem State.inv_respond {s : State} (h : s.halt = false) (r : Result) : (s.respond r).Inv :=
  ⟨by simp, fun _ => by simp [h, Result.status_eq_three_iff]⟩

end Sys2Proof.Machine
end

