-- ==== Sys2Proof/Tests/Slice0.lean ====
section
/-! SUPPORT. The model's own tests: expected values are the spec's own (spec/95_test_vectors.md and the tables of the
rules named), never the model's. Then one witness for the hypotheses of each statement that has some. -/

namespace Sys2Proof.Tests

open Sys2Proof Sys2Proof.Machine

/-! ## Small states -/

/-- The reset state with given moves of the outside agents. -/
def idle (moves : List Inputs) : State := { State.reset with moves := moves }

/-- A waiting response of a given status. -/
def waiting (status : BitVec 2) (moves : List Inputs) : State :=
  { State.reset with rspValid := true, rspStatus := status, halt := status == 3#2, moves := moves }

/-- A generator command in flight. -/
def inFlight (g : Generator) (moves : List Inputs) : State := { State.reset with inFlight := some g, moves := moves }

/-- The source answers with drawn bits. -/
def drawn (r : UUID) : Inputs := { Inputs.quiet with entValid := true, entData := r }

/-- The source answers with failure. -/
def drawFail : Inputs := { Inputs.quiet with entFail := true }

/-- The host takes the response. -/
def taking : Inputs := { Inputs.quiet with rspReady := true }

/-- The host applies reset. -/
def resetting : Inputs := { Inputs.quiet with rst := true }

/-- The slug `eWIgwMgxSfeXQ36iPbOxiQ` (S1). -/
def slugS1 : Slug := lanes 0x65574967774d6778536665585133366950624f786951#176

/-- The symbols of S1. -/
def symsS1 : SymVec := #v[30, 22, 8, 32, 48, 12, 32, 49, 18, 31, 30, 23, 16, 55, 58, 34, 15, 27, 14, 49, 34, 16]

/-- The value of S1. -/
def uuidS1 : UUID := 0x796220c0c83149f797437ea23db3b189#128

/-! ## The command word, written out field by field from R50 to R52 -/

/-- ENCODE: `cmd_data = 0^48 ∥ 0x0...02`, `cmd_len = 0`, `cmd_op = 00`. -/
theorem test_decode_encode_word :
    decodeWord (0x000000000000#48 ++ 0x00000000000000000000000000000002#128 ++ 0b00000000#8 ++ 0b00#2) =
      .encode 0#8 0#48 2#128 := by decide

/-- DECODE "AB": lane 0 `0x41`, lane 1 `0x42`, the other twenty zero, `cmd_len = 2`, `cmd_op = 01`. -/
theorem test_decode_decode_word :
    decodeWord (0x41#8 ++ 0x42#8 ++ 0#160 ++ 0b00000010#8 ++ 0b01#2) = assembleDecode [0x41#8, 0x42#8] := by decide

/-- RANDV4 with ignored bits that are not zero: `cmd_op = 10`. -/
theorem test_decode_randv4_word :
    decodeWord (0x1#176 ++ 0b10000000#8 ++ 0b10#2) = .randv4 0x80#8 1#176 := by decide

/-- RANDNICE: `cmd_op = 11`. -/
theorem test_decode_randnice_word : decodeWord (0#176 ++ 0#8 ++ 0b11#2) = assembleRandnice := by decide

/-- S1, the ENCODE command word of the spec, and back. -/
theorem test_s1_encode_word :
    encodeWord (assembleEncode uuidS1) = 0x0000000000001e588830320c527de5d0dfa88f6cec62400#186 := by decide

/-- S1, the DECODE command word of the spec, and back. -/
theorem test_s1_decode_word :
    encodeWord (.decode 22#8 slugS1) = 0x1955d259ddd359de14d99956144ccd9a541893de1a54459#186 := by decide

/-- `nbits` shorter than the word: the bits above are zero. -/
theorem test_table_word : decodeTableWord 8 0x0103 = some (.randnice 0#8 0#176) := by decide

/-! ## The assembler's form (R56, R64): each check refuses a term that is not in it -/

theorem test_assembled_refuses_encode_len : (Instr.encode 1#8 0#48 0#128).assembled = false := by decide

theorem test_assembled_refuses_encode_hi : (Instr.encode 0#8 1#48 0#128).assembled = false := by decide

theorem test_assembled_refuses_lane : (Instr.decode 21#8 (lanes 0x41#176)).assembled = false := by decide

theorem test_assembled_refuses_randv4_len : (Instr.randv4 1#8 0#176).assembled = false := by decide

theorem test_assembled_refuses_randv4_data : (Instr.randv4 0#8 1#176).assembled = false := by decide

theorem test_assembled_refuses_randnice_len : (Instr.randnice 1#8 0#176).assembled = false := by decide

theorem test_assembled_refuses_randnice_data : (Instr.randnice 0#8 1#176).assembled = false := by decide

/-! ## The datapath -/

/-- V1, left column: every end of a run of the table. -/
theorem test_s2c_ends :
    [0#6, 25#6, 26#6, 51#6, 52#6, 61#6, 62#6, 63#6].map s2c = [0x41, 0x5A, 0x61, 0x7A, 0x30, 0x39, 0x2D, 0x5F] := by
  decide

/-- V1, right column: the neighbours of each run, base64's own symbols and the rest are invalid. -/
theorem test_c2s_invalid :
    [0x40#8, 0x5B#8, 0x60#8, 0x7B#8, 0x2F#8, 0x3A#8, 0x2B#8, 0x3D#8, 0x20#8, 0x00#8, 0x0A#8, 0x2E#8, 0x2C#8, 0x5E#8,
      0x7F#8, 0x80#8, 0xC3#8, 0xFF#8].all (fun c => c2s c == none) = true := by decide

/-- S1: the symbols of the value. -/
theorem test_pack_s1 : pack uuidS1 = symsS1 := by decide

/-- S3: the value of the symbols (R84, example). -/
theorem test_unpack_s3 :
    unpack #v[62, 62, 62, 62, 62, 62, 62, 62, 16, 62, 62, 63, 63, 63, 63, 63, 63, 63, 63, 63, 63, 16] =
      0xfbefbefbefbe43efbffffffffffffffd#128 := by decide

/-- V6: all six stamped bits wrong and nothing else set. -/
theorem test_stamp_v6 : stamp 0x000000000000f000c000000000000000#128 = 0x00000000000040008000000000000000#128 := by
  decide

/-- V6: the top bit, with the fields already set. -/
theorem test_nice_v6 : nice 0x80000000000040008000000000000000#128 = 0x00000000000040008000000000000000#128 := by
  decide

/-! ## The commands, one step each -/

/-- S1: the ENCODE response word. -/
theorem test_encode_s1 :
    ∃ t, exec (assembleEncode uuidS1) State.reset = .next t ∧ t.rw = 0x1955d259ddd359de14d99956144ccd9a541893de1a544#178 :=
  ⟨_, exec_encode_of_ready (by decide) _ _ _, by decide⟩

/-- V2, byte ramp: `AAECAwQFBgcICQoLDA0ODw`. -/
theorem test_encode_byte_ramp :
    ∃ t, exec (assembleEncode 0x000102030405060708090a0b0c0d0e0f#128) State.reset = .next t ∧
      t.rspData = 0x41414543417751464267634943516F4C4441304F4477#176 :=
  ⟨_, exec_encode_of_ready (by decide) _ _ _, by decide⟩

/-- V4: `eWIgwMgxSfeXQ36iPbOxif` decodes to the value of S1, its four trailing bits being dropped. -/
theorem test_decode_trailing_bits :
    ∃ t, exec (.decode 22#8 (lanes 0x65574967774d6778536665585133366950624f786966#176)) State.reset = .next t ∧
      t.rspStatus = 0#2 ∧ t.uuidOut = uuidS1 := by
  refine ⟨_, exec_decode_of_ready (by decide) _ _, ?_⟩
  rw [State.decodeString_of_valid (sym := symsS1.set 21 31#6) _ (by decide), State.uuidOut_respond]
  decide

/-- V5: 300 characters, `len` saturates; and `eWIgwMgxSfeXQ36iPbOxi+`, `+` in lane 21. -/
theorem test_decode_errors :
    (∃ t, exec (assembleDecode (List.replicate 300 0x41#8)) State.reset = .next t ∧ t.rspStatus = 1#2 ∧
      t.halt = false) ∧
    (∃ t, exec (.decode 22#8 (lanes 0x65574967774d6778536665585133366950624f78692b#176)) State.reset = .next t ∧
      t.rspStatus = 2#2 ∧ t.halt = false) := by
  refine ⟨⟨_, exec_decode_of_ready (by decide) _ _, ?_⟩, ⟨_, exec_decode_of_ready (by decide) _ _, ?_⟩⟩
  · rw [State.decodeString_of_len_ne _ _ (by rw [List.length_replicate]; decide)]
    exact ⟨rfl, rfl⟩
  · rw [State.decodeString_of_invalid _ (by decide)]
    exact ⟨rfl, rfl⟩

/-- V7: draw `deadbeef-...`, response `3q2-796tTu-erb7v3q2-7w`. -/
theorem test_randv4_v7 :
    ∃ t, exec assembleRandv4 (idle [drawn 0xdeadbeefdeadbeefdeadbeefdeadbeef#128]) = .next t ∧
      t.rspStatus = 0#2 ∧ t.rspData = 0x3371322D3739367454752D65726237763371322D3777#176 := by
  refine ⟨_, exec_randv4_of_ready (by decide) _ _, ?_⟩
  rw [State.generate_of_ok (r := 0xdeadbeefdeadbeefdeadbeefdeadbeef#128) (by decide)]
  decide

/-- V7 and V9: draw `FAIL`, status 3 and `HALT`. -/
theorem test_randv4_fail :
    ∃ t, exec assembleRandv4 (idle [drawFail]) = .next t ∧ t.rspStatus = 3#2 ∧ t.rspValid = true ∧ t.halt = true :=
  ⟨_, rfl, rfl, rfl, rfl⟩

/-- V7: the all-one draw, response `f_______T_-__________w`. -/
theorem test_randnice_v7 :
    ∃ t, exec assembleRandnice (idle [drawn (BitVec.allOnes 128)]) = .next t ∧
      t.rspStatus = 0#2 ∧ t.rspData = 0x665F5F5F5F5F5F5F545F2D5F5F5F5F5F5F5F5F5F5F77#176 := by
  refine ⟨_, exec_randnice_of_ready (by decide) _ _, ?_⟩
  rw [State.generate_of_ok (r := BitVec.allOnes 128) (by decide)]
  decide

/-- V9, last row: the source is silent, `ent_req = 1` and no response. -/
theorem test_randnice_waits :
    ∃ t, exec assembleRandnice State.reset = .next t ∧ t.outputs.entReq = true ∧ t.rspValid = false ∧ t.halt = false :=
  ⟨_, rfl, rfl, rfl, rfl⟩

/-! ## The step -/

/-- A placed table word is the command the very next step runs, from reset. -/
theorem test_step_runs_placed_word :
    ∃ t, step (State.reset.withFetchWord 192 0x1) = .next t ∧ t.rspStatus = 1#2 ∧ t.rspValid = true := ⟨_, rfl, rfl, rfl⟩

/-- P4, row 2: a halted core does not answer the ENCODE. -/
theorem test_halted_core_accepts_nothing :
    step ({ State.reset with halt := true }.presenting 0#186) = .next { State.reset with halt := true } := rfl

/-- V9: a take of the `ENTROPY_FAILURE` response leads to (1, 0). -/
theorem test_take_after_failure : ∃ t, step (waiting 3#2 [taking]) = .next t ∧ t.halt = true ∧ t.rspValid = false :=
  ⟨_, rfl, rfl, rfl⟩

/-- P4, row 3: reset clears `HALT`. -/
theorem test_reset_clears_halt :
    ∃ t, step (waiting 3#2 [resetting]) = .next t ∧ t.halt = false ∧ t.rspValid = false := ⟨_, rfl, rfl, rfl⟩

/-- U7: an answer that no request waits for is refused. -/
theorem test_stray_answer_refused : step (idle [drawFail]) = .refused .answerWithoutRequest := rfl

/-! ## Witnesses: the hypotheses of each statement that has some are met together -/

theorem witness_DecodeOfEncodeIsTheCommand : (assembleEncode uuidS1).wellFormed = true := by decide

theorem witness_IgnoredBitsHaveNoEffect_encode :
    CommandWord.op 0x0#186 = CommandWord.op 0x4#186 ∧ CommandWord.op 0x0#186 = 0#2 ∧
      (CommandWord.data 0x0#186).extractLsb' 0 128 = (CommandWord.data 0x4#186).extractLsb' 0 128 := by decide

theorem witness_IgnoredBitsHaveNoEffect_decode :
    CommandWord.op 0x1#186 = CommandWord.op 0x401#186 ∧ CommandWord.op 0x1#186 = 1#2 ∧
      CommandWord.len 0x1#186 = CommandWord.len 0x401#186 ∧ CommandWord.len 0x1#186 ≠ 22#8 := by decide

theorem witness_IgnoredBitsHaveNoEffect_generator :
    CommandWord.op 0x2#186 = CommandWord.op 0x3fffffffffffffffffffffffffffffffffffffffffffffe#186 ∧
      CommandWord.op 0x2#186 = 2#2 := by decide

/-- EncoderTrailingBitsAreZero, its four clauses: each value of `u[1:0]`, in a state that accepts a command. -/
theorem witness_EncoderTrailingBitsAreZero :
    (0#128).extractLsb' 0 2 = 0#2 ∧ (1#128).extractLsb' 0 2 = 1#2 ∧ (2#128).extractLsb' 0 2 = 2#2 ∧
      (3#128).extractLsb' 0 2 = 3#2 ∧ State.reset.ready = true := by decide

/-- A state that accepts a command, for EncodeAnswersTheSlug, EncodeTotalDecodeOkOnValidSlugs and
DecodeOfEncodeIsTheValue. -/
theorem witness_ready : State.reset.ready = true := by decide

theorem witness_EncodeOfDecodeIsTheCanonicalSlug : State.reset.ready = true ∧ validSlug slugS1 := by decide

theorem witness_CodecBijectiveOnCanonicalSlugs : pack uuidS1 = pack uuidS1 ∧ canonical symsS1 := by decide

theorem witness_DecodeAnswersTheValue :
    State.reset.ready = true ∧ (∀ i : Fin 22, c2s slugS1[i.val] = some symsS1[i.val]) ∧
      (0x1#186).extractLsb' 0 2 = 1#2 := by decide

theorem witness_WrongLengthIsInvalidLength :
    State.reset.ready = true ∧ (21#8 : BitVec 8) ≠ 22#8 ∧ (23#8 : BitVec 8) ≠ 22#8 ∧
      (List.replicate 278 0x41#8).length ≠ 22 := by
  refine ⟨by decide, by decide, by decide, ?_⟩
  rw [List.length_replicate]
  decide

theorem witness_BadCharacterIsInvalidCharacter :
    State.reset.ready = true ∧ (∃ i : Fin 22, c2s (lanes 0x2b#176)[i.val] = none) ∧
      (∃ i : Fin 22, c2s (slugS1.set 21 0x2b#8)[i.val] = none) := by decide

/-- The ranges of PackSymbolBySymbol, PackByBytes and UnpackByBytes, at their upper ends. -/
theorem witness_pack_ranges : 20 < 21 ∧ 131 < 132 ∧ 4 < 5 := by decide

/-- R45: past the value's last bit there is a 0, whatever that bit is. -/
theorem test_ubit_past_the_end : ubit 1#128 127 = true ∧ ubit 1#128 128 = false ∧ ubit 1#128 131 = false := by decide

/-- R11: `deadbeef-...` reads `d`, `e`, ... from digit 0 on. -/
theorem test_hex_digits :
    [0, 1, 2, 31].map (hexDigit 0xdeadbeefdeadbeefdeadbeefdeadbee7#128) = [0xd, 0xe, 0xa, 0x7] := by decide

/-- The ranges of EveryWidthIsCutFromOneSequence, at their upper ends. -/
theorem witness_EveryWidthIsCutFromOneSequence :
    15 < 16 ∧ 7 < 8 ∧ 31 < 32 ∧ 3 < 4 ∧ 21 < 22 ∧ 5 < 6 ∧ 128 ≤ 128 ∧
      ∀ k : Nat, k < 128 → ubit uuidS1 k = ubit uuidS1 k := by
  refine ⟨?_, ?_, ?_, ?_, ?_, ?_, ?_, fun _ _ => rfl⟩ <;> decide

theorem witness_StampSetsVersionAndVariant :
    47 < 128 ∧ 47 ∉ [48, 49, 50, 51, 64, 65] ∧ uuidS1.extractLsb' 76 4 = 0b0100#4 ∧ uuidS1.extractLsb' 62 2 = 0b10#2 := by
  decide

theorem witness_NiceClearsTheTopBit : 0 < 127 ∧ 127 < 128 ∧ ubit uuidS1 0 = false := by decide

theorem witness_StampIsAMask : 15 < 16 ∧ 15 ≠ 6 ∧ 15 ≠ 8 := by decide

/-- Randv4AnswersTheStampedSlug, RandniceAnswersTheNiceSlug (with its last clause), GeneratedSlugsKeepTheirSets,
DecodeRecoversTheGeneratedValue. -/
theorem witness_answered :
    (idle [drawn uuidS1]).ready = true ∧ (idle [drawn uuidS1]).draw = some (.ok uuidS1) ∧ ubit uuidS1 0 = false := by
  decide

/-- GeneratedSlugsKeepTheirSets, its last clause. -/
theorem witness_free_position : 20 < 22 ∧ 20 ∉ [0, 8, 10, 21] := by decide

/-- FailedDrawHaltsTheCore, at acceptance and after a wait; and the wait of WhichCommandRaisesWhat. -/
theorem witness_FailedDrawHaltsTheCore :
    (idle [drawFail]).ready = true ∧ (idle [drawFail]).draw = some .fail ∧
      (inFlight .randv4 [drawFail]).now.rst = false ∧ (inFlight .randv4 [drawFail]).rspValid = false ∧
      (inFlight .randv4 [drawFail]).inFlight = some .randv4 ∧ (inFlight .randv4 [drawFail]).draw = some .fail ∧
      ∃ t, step (inFlight .randv4 [drawFail]) = .next t ∧ t.rspValid = true :=
  ⟨rfl, rfl, rfl, rfl, rfl, rfl, _, rfl, rfl⟩

theorem witness_UnansweredGeneratorWaits : (idle []).ready = true ∧ (idle []).draw = none := by decide

theorem witness_WaitingGeneratorEndsWithItsAnswer :
    (inFlight .randv4 [drawn uuidS1]).now.rst = false ∧ (inFlight .randv4 [drawn uuidS1]).rspValid = false ∧
      (inFlight .randv4 [drawn uuidS1]).inFlight = some .randv4 ∧
      (inFlight .randv4 [drawn uuidS1]).draw = some (.ok uuidS1) ∧
      (inFlight .randnice [drawFail]).now.rst = false ∧ (inFlight .randnice [drawFail]).draw = some .fail := by decide

/-- EntropyAnswerFromThePorts, its four clauses; both flags up are a failure. -/
theorem witness_EntropyAnswerFromThePorts :
    { drawn uuidS1 with entFail := true }.answer = some .fail ∧ (drawn uuidS1).entValid = true ∧
      (drawn uuidS1).entFail = false ∧ (drawn uuidS1).answer = some (.ok uuidS1) ∧ Inputs.quiet.entValid = false ∧
      Inputs.quiet.entFail = false := by decide

/-- WhichCommandRaisesWhat and CodecCommandsFrame: an accepted command of each kind gives a next state; and, for the
frame, a core that is not ready. -/
theorem witness_codec_next :
    (∃ t, exec (assembleEncode uuidS1) State.reset = .next t) ∧ (∃ t, exec (.decode 22#8 slugS1) State.reset = .next t) ∧
      (assembleEncode uuidS1).op = 0#2 ∧ (Instr.decode 22#8 slugS1).op = 1#2 ∧ (waiting 0#2 []).ready = false :=
  ⟨⟨_, rfl⟩, ⟨_, rfl⟩, rfl, rfl, rfl⟩

/-- GeneratorCommandsFrame and WhichCommandRaisesWhat: answered, failed, unanswered, and not ready. -/
theorem witness_generator_next :
    (∃ t, exec assembleRandv4 (idle [drawn uuidS1]) = .next t ∧ t.rspValid = true) ∧
      (∃ t, exec assembleRandnice (idle []) = .next t) ∧ (idle [drawn uuidS1]).draw ≠ some .fail ∧
      (idle []).draw = none ∧ (idle [drawFail]).draw ≠ none ∧ assembleRandv4.op = 2#2 ∧ assembleRandnice.op = 3#2 ∧
      (waiting 0#2 []).ready = false :=
  ⟨⟨_, rfl, rfl⟩, ⟨_, rfl⟩, by decide, rfl, by decide, rfl, rfl, rfl⟩

/-- Two states with different histories that accept a command, with the same answer. -/
theorem witness_ResultsDoNotDependOnHistory :
    (idle [drawn uuidS1]).ready = true ∧ ({ waiting 2#2 [drawn uuidS1] with rspValid := false, occasion := 7 }).ready = true ∧
      (idle [drawn uuidS1]).draw = ({ waiting 2#2 [drawn uuidS1] with rspValid := false, occasion := 7 }).draw ∧
      (∃ t, exec assembleRandv4 (idle [drawn uuidS1]) = .next t ∧ t.rspValid = true ∧ t.rspStatus = 0#2) :=
  ⟨rfl, rfl, rfl, _, rfl, rfl, rfl⟩

theorem witness_NothingAcceptedUnlessReady :
    (waiting 3#2 []).halt = true ∧ (waiting 0#2 []).rspValid = true ∧ (inFlight .randv4 []).inFlight.isSome = true := by
  decide

/-- StepRunsThePresentedCommand: an ENCODE, and a RANDV4 whose answer comes at once. -/
theorem witness_StepRunsThePresentedCommand :
    (State.reset.presenting 0#186).now.rst = false ∧ (State.reset.presenting 0#186).rspValid = false ∧
      (State.reset.presenting 0#186).inFlight = none ∧ (State.reset.presenting 0#186).now.cmdValid = true ∧
      (State.reset.presenting 0#186).strayAnswer = false ∧
      ((idle [drawn uuidS1]).presenting 2#186).strayAnswer = false := by decide

theorem witness_TakeClearsValidOnly :
    (waiting 3#2 [taking]).now.rst = false ∧ (waiting 3#2 [taking]).strayAnswer = false ∧
      (waiting 3#2 [taking]).rspValid = true ∧ (waiting 3#2 [taking]).now.rspReady = true ∧
      (waiting 3#2 [taking]).Inv ∧ (waiting 3#2 [taking]).rspStatus = 3#2 ∧ State.reset.rspValid = false := by decide

theorem witness_ResetWorksInEveryState : (inFlight .randv4 [resetting]).now.rst = true := by decide

/-- LateAnswerIsDiscarded: the reset, the acceptance of a generator command, a command in flight, an idle core, and a
response that waits and one that is taken. -/
theorem witness_LateAnswerIsDiscarded :
    (inFlight .randv4 [resetting]).now.rst = true ∧ (inFlight .randv4 [resetting]).inFlight.isSome = true ∧
      (inFlight .randv4 [resetting]).now.answer = none ∧
      ({ idle [drawn uuidS1] with owed := 1 }.presenting 3#186).now.rst = false ∧
      ({ idle [drawn uuidS1] with owed := 1 }.presenting 3#186).ready = true ∧
      ({ idle [drawn uuidS1] with owed := 1 }.presenting 3#186).owed = 0 + 1 ∧
      ({ idle [drawn uuidS1] with owed := 1 }.presenting 3#186).now.answer.isSome = true ∧
      ({ idle [drawn uuidS1] with owed := 1 }.presenting 3#186).now.cmdValid = true ∧
      ({ idle [drawn uuidS1] with owed := 1 }.presenting 3#186).now.cmdOp = 3#2 ∧
      ({ inFlight .randv4 [drawFail] with owed := 2 }).now.answer.isSome = true ∧
      ({ inFlight .randv4 [drawFail] with owed := 2 }).now.rst = false ∧
      ({ inFlight .randv4 [drawFail] with owed := 2 }).owed = 1 + 1 ∧
      ({ inFlight .randv4 [drawFail] with owed := 2 }).rspValid = false ∧
      ({ inFlight .randv4 [drawFail] with owed := 2 }).inFlight = some .randv4 ∧
      (idle [drawFail]).rspValid = false ∧ (idle [drawFail]).inFlight = none ∧
      (idle [drawFail]).now.cmdValid = false ∧ (waiting 0#2 [drawFail]).rspValid = true ∧
      (waiting 0#2 [{ drawFail with rspReady := true }]).now.rspReady = true := by decide

/-- R141: a late failure neither ends the command in flight nor halts the core. -/
theorem test_late_failure_is_discarded :
    ∃ t, step { inFlight .randv4 [drawFail] with owed := 1 } = .next t ∧ t.inFlight = some .randv4 ∧
      t.rspValid = false ∧ t.halt = false ∧ t.owed = 0 := ⟨_, rfl, rfl, rfl, rfl, rfl⟩

/-- HaltSetByFailedDrawClearedByReset: a step that sets `HALT`, at acceptance and after a wait, and one that clears it. -/
theorem witness_HaltSetByFailedDrawClearedByReset :
    (∃ t, step ((idle [drawFail]).presenting 2#186) = .next t ∧ ((idle [drawFail]).presenting 2#186).halt = false ∧
      ((idle [drawFail]).presenting 2#186).acceptsGenerator = true ∧
      ((idle [drawFail]).presenting 2#186).now.rst = false ∧
      ((idle [drawFail]).presenting 2#186).draw = some .fail ∧ t.halt = true) ∧
    (∃ t, step (inFlight .randnice [drawFail]) = .next t ∧ (inFlight .randnice [drawFail]).rspValid = false ∧
      (inFlight .randnice [drawFail]).inFlight.isSome = true) ∧
    (∃ t, step (waiting 3#2 [resetting]) = .next t ∧ (waiting 3#2 [resetting]).now.rst = true ∧
      (waiting 3#2 [resetting]).halt = true ∧ t.halt = false) :=
  ⟨⟨_, rfl, rfl, rfl, rfl, rfl, rfl⟩, ⟨_, rfl, rfl, rfl⟩, ⟨_, rfl, rfl, rfl, rfl⟩⟩

/-- ResponseIsNeverOverwritten: a response that stays, one that is taken, and one that appears. -/
theorem witness_ResponseIsNeverOverwritten :
    (∃ t, step (waiting 0#2 []) = .next t ∧ (waiting 0#2 []).rspValid = true ∧ (waiting 0#2 []).now.rst = false) ∧
    (∃ t, step (waiting 0#2 [taking]) = .next t ∧ (waiting 0#2 [taking]).rspValid = true ∧ t.rspValid = false) ∧
    (∃ t, step (State.reset.presenting 0#186) = .next t ∧ State.reset.rspValid = false ∧ t.rspValid = true) :=
  ⟨⟨_, rfl, rfl, rfl⟩, ⟨_, rfl, rfl, rfl⟩, ⟨_, rfl, rfl, rfl⟩⟩

theorem witness_OutputPortsFollowTheState :
    (idle [resetting]).now.rst = true ∧ (idle []).now.rst = false := by decide

/-- R35: the request of a RANDV4 stands in the step that accepts it, in which its answer may come; an ENCODE makes none. -/
theorem test_request_at_acceptance :
    ((idle [drawn uuidS1]).presenting 2#186).outputs.entReq = true ∧
      ((idle [drawn uuidS1]).presenting 2#186).strayAnswer = false ∧
      (State.reset.presenting 0#186).outputs.entReq = false ∧
      ((idle [drawn uuidS1]).presenting 0#186).strayAnswer = true := by decide

/-- RequestStandsUntilItsAnswer: an accepted ENCODE and RANDV4, no answer, an answer, and no request. -/
theorem witness_RequestStandsUntilItsAnswer :
    ((idle []).presenting 2#186).Inv ∧ (∃ t, step ((idle []).presenting 2#186) = .next t) ∧
      ((idle []).presenting 2#186).accepted = some assembleRandv4 ∧
      ((idle []).presenting 2#186).outputs.entReq = true ∧ ((idle []).presenting 2#186).draw = none ∧
      (State.reset.presenting 0#186).accepted = some (assembleEncode 0#128) ∧
      (State.reset.presenting 0#186).outputs.entReq = false ∧ (inFlight .randv4 [drawFail]).Inv ∧
      (∃ t, step (inFlight .randv4 [drawFail]) = .next t) ∧ (inFlight .randv4 [drawFail]).outputs.entReq = true ∧
      (inFlight .randv4 [drawFail]).draw.isSome = true :=
  ⟨by decide, ⟨_, rfl⟩, by decide, by decide, by decide, by decide, by decide, by decide, ⟨_, rfl⟩, by decide, by decide⟩

/-- OneAnswerPerGeneratorCommand: a RANDV4 accepted at the first step and answered at the second. -/
theorem witness_OneAnswerPerGeneratorCommand :
    ((idle [Inputs.quiet, drawFail]).presenting 2#186).Inv ∧
      (∀ p ∈ ((idle [Inputs.quiet, drawFail]).presenting 2#186).moves.take 2, p.rst = false) ∧
      (∃ t, Sys2Proof.core.run 2 ((idle [Inputs.quiet, drawFail]).presenting 2#186) = .next t) ∧
      State.answersIn 2 ((idle [Inputs.quiet, drawFail]).presenting 2#186) = [.fail] :=
  ⟨by decide, by decide, ⟨_, rfl⟩, rfl⟩

theorem witness_EveryStepKeepsInv : State.reset.Inv ∧ ∃ t, step State.reset = .next t := ⟨by decide, _, rfl⟩

/-- OneResponsePerAcceptedCommand: two steps, an ENCODE and the take of its response. -/
theorem witness_OneResponsePerAcceptedCommand :
    ((idle [Inputs.quiet, taking]).presenting 0#186).Inv ∧
      (∀ p ∈ ((idle [Inputs.quiet, taking]).presenting 0#186).moves.take 2, p.rst = false) ∧
      ∃ t, Sys2Proof.core.run 2 ((idle [Inputs.quiet, taking]).presenting 0#186) = .next t :=
  ⟨by decide, by decide, _, rfl⟩

theorem witness_HaltedCoreAcceptsNothingUntilReset :
    (waiting 3#2 [taking]).halt = true ∧ (∀ p ∈ (waiting 3#2 [taking]).moves.take 1, p.rst = false) ∧
      ∃ t, Sys2Proof.core.run 1 (waiting 3#2 [taking]) = .next t := ⟨rfl, by decide, _, rfl⟩

/-- SilentSourceLeavesTheCoreWaiting, with no answer and with a late one. -/
theorem witness_SilentSourceLeavesTheCoreWaiting :
    (inFlight .randv4 [taking]).rspValid = false ∧ (inFlight .randv4 [taking]).inFlight = some .randv4 ∧
      (∀ p ∈ (inFlight .randv4 [taking]).moves, p.rst = false) ∧ (inFlight .randv4 [taking]).onlyLateAnswers ∧
      ({ inFlight .randv4 [drawFail, taking] with owed := 1 }).onlyLateAnswers := by decide

theorem witness_UntakenResponseWaits :
    (waiting 0#2 [drawFail]).rspValid = true ∧
      (∀ p ∈ (waiting 0#2 [drawFail]).moves, p.rst = false ∧ p.rspReady = false) ∧
      ({ waiting 0#2 [drawFail] with owed := 1 }).onlyLateAnswers := by decide

/-- CommandsCompleteOnTheirOwn: an ENCODE and a DECODE with no answer or a late one, a RANDV4 and a RANDNICE with one. -/
theorem witness_CommandsCompleteOnTheirOwn :
    State.reset.ready = true ∧ State.reset.now.answer = none ∧ CommandWord.op 0#186 = 0#2 ∧ CommandWord.op 1#186 = 1#2 ∧
      ({ idle [drawFail] with owed := 1 }).ready = true ∧ 0 < ({ idle [drawFail] with owed := 1 }).owed ∧
      (idle [drawFail]).ready = true ∧ (idle [drawFail]).draw.isSome = true ∧ CommandWord.op 2#186 = 2#2 ∧
      CommandWord.op 3#186 = 3#2 := by decide

/-- An ENCODE of 0 presented at the first step, and the take of its response at the second. -/
def goodRun : State := (idle [Inputs.quiet, taking]).presenting 0#186

/-- EndedRunAnswersEveryCommand and EndedRunStaysEnded: two steps, one command, and then a quiet step. -/
theorem witness_endedWell :
    ∃ t, State.endedWell 2 goodRun t ∧ (State.presentedIn 2 goodRun).length = 1 ∧
      (∀ p ∈ t.moves, p.rst = false) ∧ t.onlyLateAnswers :=
  ⟨_, ⟨rfl, by decide, rfl, rfl, by decide, rfl⟩, rfl, by decide, by decide⟩

/-- R149: a command presented only in the step of the take before it, and then withdrawn, is presented and not accepted. -/
theorem test_withdrawn_command_is_no_good_end :
    State.presentedIn 1 ((waiting 0#2 [taking]).presenting 0#186) = [assembleEncode 0#128] ∧
      State.acceptedIn 1 ((waiting 0#2 [taking]).presenting 0#186) = [] := by decide

end Sys2Proof.Tests
end

/-! SUPPORT. The statements about the state, the step and runs (spec/10_state.md). -/

namespace Sys2Proof.Machine

/-! ### Which command is accepted, and when it makes a request -/

/-- The command's opcode is the word's (R50, R52). -/
theorem decodeWord_op (cw : CommandWord) : (decodeWord cw).op = CommandWord.op cw := by
  unfold decodeWord
  split <;> simp [Instr.op, *]

@[simp] theorem Inputs.op_cw (p : Inputs) : CommandWord.op p.cw = p.cmdOp := op_commandWord _ _ _

theorem isGenerator_eq_true_iff (i : Instr) : isGenerator i = true ↔ i.op = 2#2 ∨ i.op = 3#2 := by
  simp [isGenerator]

/-- The commands that do not draw are `ENCODE` and `DECODE` (R52). -/
theorem isGenerator_eq_false_iff (i : Instr) : isGenerator i = false ↔ i.op = 0#2 ∨ i.op = 1#2 := by
  cases i <;> simp [isGenerator, Instr.op]

theorem State.not_ready_iff (s : State) :
    s.ready = false ↔ s.halt = true ∨ s.rspValid = true ∨ s.inFlight.isSome = true := by
  simp [State.ready, imp_iff_not_or, or_assoc]

/-- What is accepted, and when (R33). -/
theorem State.accepted_eq_some_iff (s : State) (i : Instr) :
    s.accepted = some i ↔
      s.now.rst = false ∧ s.ready = true ∧ s.now.cmdValid = true ∧ decodeWord s.now.cw = i := by
  simp [State.accepted, State.outputs, and_assoc]

theorem State.accepted_of_not_ready {s : State} (h : s.ready = false) : s.accepted = none := by
  simp [State.accepted, State.outputs, h]

/-- A generator command is accepted exactly where the command accepted is one that draws. -/
theorem State.acceptsGenerator_iff_accepted (s : State) :
    s.acceptsGenerator = true ↔ ∃ i, s.accepted = some i ∧ isGenerator i = true := by
  simp [s.acceptsGenerator_iff, State.accepted_eq_some_iff, isGenerator_eq_true_iff, decodeWord_op, and_assoc]

theorem State.rspValid_of_acceptsGenerator {s : State} (h : s.acceptsGenerator = true) : s.rspValid = false := by
  obtain ⟨-, hready, -, -⟩ := s.acceptsGenerator_iff.mp h
  exact (s.ready_iff.mp hready).2.1

/-- At an acceptance a request is made by a generator command and by no other (R35). -/
theorem State.entReq_of_accepted {s : State} {i : Instr} (h : s.accepted = some i) :
    s.outputs.entReq = isGenerator i := by
  obtain ⟨hrst, hready, -, -⟩ := (s.accepted_eq_some_iff i).mp h
  obtain ⟨-, -, hflight⟩ := s.ready_iff.mp hready
  rw [Bool.eq_iff_iff, s.entReq_iff, s.acceptsGenerator_iff_accepted]
  simp [hrst, hflight, h]

/-- Without reset `ent_req` is 0 exactly where no command is in flight and no generator command is accepted. -/
theorem State.entReq_eq_false_iff {s : State} (hrst : s.now.rst = false) :
    s.outputs.entReq = false ↔ s.inFlight = none ∧ s.acceptsGenerator = false := by
  simp [State.outputs, hrst]

/-- A request stands only where the core is neither halted nor responding (R33, R35). -/
theorem State.halt_rspValid_of_entReq {s : State} (hinv : s.Inv) (h : s.outputs.entReq = true) :
    s.halt = false ∧ s.rspValid = false := by
  obtain ⟨-, hflight | hgen⟩ := s.entReq_iff.mp h
  · exact hinv.1 hflight
  · obtain ⟨-, hready, -, -⟩ := s.acceptsGenerator_iff.mp hgen
    obtain ⟨hhalt, hvalid, -⟩ := s.ready_iff.mp hready
    exact ⟨hhalt, hvalid⟩

/-- A waiting response leaves nothing in flight. -/
theorem State.inFlight_of_rspValid {s : State} (hinv : s.Inv) (h : s.rspValid = true) : s.inFlight = none := by
  by_contra hflight
  obtain ⟨-, hvalid⟩ := hinv.1 (Option.isSome_iff_ne_none.mpr hflight)
  simp [h] at hvalid

/-! ### The end of a generator command, whatever its answer -/

section
variable (g : Generator) (s : State) (a : Draw)

/-- The end of a generator command is a response (R37). -/
theorem State.finish_eq_respond : ∃ r : Result, State.finish g s a = s.respond r := by
  cases a with
  | ok r => exact ⟨.slug (slugOf (g.shape r)), rfl⟩
  | fail => exact ⟨.error .entropyFailure, rfl⟩

@[simp] theorem State.finish_rspValid : (State.finish g s a).rspValid = true := by cases a <;> rfl
@[simp] theorem State.finish_inFlight : (State.finish g s a).inFlight = none := by cases a <;> rfl
@[simp] theorem State.finish_halt : (State.finish g s a).halt = (s.halt || decide (a = .fail)) := by cases a <;> rfl

/-- An answered generator command ends with its answer. -/
theorem State.generate_of_answer {g : Generator} {s : State} {a : Draw} (h : s.draw = some a) :
    s.generate g = State.finish g s a := by
  simp [State.generate, State.await, h]

end

/-! ### What the core does at a step, by what it finds -/

theorem act_of_rspValid {s : State} (h : s.rspValid = true) :
    act s = .next (if s.now.rspReady then s.take else s) := by
  simp [act, h]

theorem act_of_inFlight {s : State} {g : Generator} (hvalid : s.rspValid = false) (hflight : s.inFlight = some g) :
    act s = .next (s.generate g) := by
  simp [act, hvalid, hflight]

/-- An accepted command is executed (R37). -/
theorem act_of_accepted {s : State} {i : Instr} (h : s.accepted = some i) : act s = exec i s := by
  obtain ⟨-, hready, hcmd, rfl⟩ := (s.accepted_eq_some_iff i).mp h
  obtain ⟨-, hvalid, hflight⟩ := s.ready_iff.mp hready
  simp [act, hvalid, hflight, hcmd]

/-- With no response waiting, a standing request is that of a generator command, which goes on (R35, R37). -/
theorem act_of_entReq {s : State} (hvalid : s.rspValid = false) (h : s.outputs.entReq = true) :
    ∃ g : Generator, act s = .next (s.generate g) := by
  obtain ⟨-, hflight | hgen⟩ := s.entReq_iff.mp h
  · obtain ⟨g, hg⟩ := Option.isSome_iff_exists.mp hflight
    exact ⟨g, act_of_inFlight hvalid hg⟩
  · exact act_of_acceptsGenerator hgen

/-- A command presented to a core that is not ready is a step in which nothing changes (R37, R129, U9). -/
theorem exec_of_not_ready {s : State} (h : s.ready = false) (i : Instr) : exec i s = .next s := by
  rcases exec_cases i s with ⟨-, he⟩ | ⟨hready, -⟩ | ⟨hready, -⟩
  · exact he
  · simp [h] at hready
  · simp [h] at hready

/-- With nothing waiting, in flight or accepted, nothing happens (R129, R147 (d)). -/
theorem act_of_idle {s : State} (hrst : s.now.rst = false) (hvalid : s.rspValid = false) (hflight : s.inFlight = none)
    (hacc : s.accepted = none) : act s = .next s := by
  cases hcmd : s.now.cmdValid with
  | false => simp [act, hvalid, hflight, hcmd]
  | true =>
    have hready : s.ready = false := by simpa [State.accepted, State.outputs, hrst, hcmd] using hacc
    simp [act, hvalid, hflight, hcmd, exec_of_not_ready hready]

/-- An accepted `ENCODE` or `DECODE` responds, and its response does not halt (R22, R90, R91). -/
theorem exec_codec_of_ready {s : State} {i : Instr} (hready : s.ready = true) (hi : isGenerator i = false) :
    ∃ r : Result, r.halts = false ∧ exec i s = .next (s.respond r) := by
  cases i with
  | encode len top u => exact ⟨.slug (slugOf u), rfl, exec_encode_of_ready hready len top u⟩
  | decode len chr =>
    obtain ⟨r, hr, h⟩ := s.decodeString_cases len chr
    exact ⟨r, hr, by rw [exec_decode_of_ready hready, h]⟩
  | randv4 len data => simp [isGenerator, Instr.op] at hi
  | randnice len data => simp [isGenerator, Instr.op] at hi

/-- The kinds of step (R37 to R39, R147), each with what the core found and the state it leaves. -/
inductive StepKind (s : State) : State → Prop
  | reset (hrst : s.now.rst = true) : StepKind s s.applyReset.advance
  | take (hrst : s.now.rst = false) (hvalid : s.rspValid = true) (htake : s.now.rspReady = true) :
      StepKind s s.take.advance
  | hold (hrst : s.now.rst = false) (hvalid : s.rspValid = true) (htake : s.now.rspReady = false) :
      StepKind s s.advance
  | codec (i : Instr) (r : Result) (hrst : s.now.rst = false) (hvalid : s.rspValid = false)
      (hreq : s.outputs.entReq = false) (hacc : s.accepted = some i) (hcodec : isGenerator i = false)
      (hr : r.halts = false) : StepKind s (s.respond r).advance
  | wait (g : Generator) (hrst : s.now.rst = false) (hvalid : s.rspValid = false) (hreq : s.outputs.entReq = true)
      (hdraw : s.draw = none) : StepKind s (s.suspend g).advance
  | finish (g : Generator) (a : Draw) (hrst : s.now.rst = false) (hvalid : s.rspValid = false)
      (hreq : s.outputs.entReq = true) (hdraw : s.draw = some a) : StepKind s (State.finish g s a).advance
  | idle (hrst : s.now.rst = false) (hvalid : s.rspValid = false) (hreq : s.outputs.entReq = false)
      (hacc : s.accepted = none) : StepKind s s.advance

/-- Every step that goes on is of one of these kinds. -/
theorem stepKind_of_step {s t : State} (h : step s = .next t) : StepKind s t := by
  obtain ⟨hrst, rfl⟩ | ⟨hrst, -, t', hact, rfl⟩ := step_cases h
  · exact .reset hrst
  cases hvalid : s.rspValid with
  | true =>
    rw [act_of_rspValid hvalid] at hact
    cases htake : s.now.rspReady with
    | true =>
      obtain rfl : s.take = t' := by simpa [htake] using hact
      exact .take hrst hvalid htake
    | false =>
      obtain rfl : s = t' := by simpa [htake] using hact
      exact .hold hrst hvalid htake
  | false =>
    cases hreq : s.outputs.entReq with
    | true =>
      obtain ⟨g, hg⟩ := act_of_entReq hvalid hreq
      obtain rfl := Host.Outcome.next.inj (hact.symm.trans hg)
      cases hdraw : s.draw with
      | none => exact State.generate_of_no_answer hdraw g ▸ .wait g hrst hvalid hreq hdraw
      | some a => exact State.generate_of_answer hdraw ▸ .finish g a hrst hvalid hreq hdraw
    | false =>
      cases hacc : s.accepted with
      | none =>
        obtain ⟨hflight, -⟩ := (State.entReq_eq_false_iff hrst).mp hreq
        obtain rfl := Host.Outcome.next.inj (hact.symm.trans (act_of_idle hrst hvalid hflight hacc))
        exact .idle hrst hvalid hreq hacc
      | some i =>
        have hcodec : isGenerator i = false := by rw [← State.entReq_of_accepted hacc, hreq]
        obtain ⟨-, hready, -, -⟩ := (s.accepted_eq_some_iff i).mp hacc
        obtain ⟨r, hr, hexec⟩ := exec_codec_of_ready hready hcodec
        obtain rfl := Host.Outcome.next.inj (hact.symm.trans ((act_of_accepted hacc).trans hexec))
        exact .codec i r hrst hvalid hreq hacc hcodec hr

/-! ### The invariant, over a step and over a run -/

/-- Settles O48: nothing is in flight and no response waits. -/
theorem resetStateSatisfiesInv : Obligations.ResetStateSatisfiesInv := by
  unfold Obligations.ResetStateSatisfiesInv
  simp [State.Inv, State.reset]

theorem State.inv_advance (s : State) : s.advance.Inv ↔ s.Inv := Iff.rfl

theorem State.inv_finish {s : State} (h : s.halt = false) (g : Generator) (a : Draw) : (State.finish g s a).Inv := by
  obtain ⟨r, hr⟩ := State.finish_eq_respond g s a
  rw [hr]
  exact State.inv_respond h r

/-- Settles O49, by the kind of step: a response is written by a command in flight or just accepted, so to a core that
is not halted, and a command is in flight only after a step that found no response. -/
theorem everyStepKeepsInv : Obligations.EveryStepKeepsInv := by
  unfold Obligations.EveryStepKeepsInv
  intro s t hinv hstep
  cases stepKind_of_step hstep with
  | reset => simp [State.Inv]
  | take hrst hvalid => simp [State.Inv, State.inFlight_of_rspValid hinv hvalid]
  | hold => exact hinv
  | codec i r _ _ _ hacc =>
    obtain ⟨-, hready, -, -⟩ := (s.accepted_eq_some_iff i).mp hacc
    exact (State.inv_advance _).mpr (State.inv_respond (s.ready_iff.mp hready).1 r)
  | wait g _ _ hreq => simp [State.Inv, State.halt_rspValid_of_entReq hinv hreq]
  | finish g a _ _ hreq =>
    exact (State.inv_advance _).mpr (State.inv_finish (State.halt_rspValid_of_entReq hinv hreq).1 g a)
  | idle => exact hinv

/-- Induction over the steps of a run without reset: what the steps keep is there to use at each of them. -/
theorem run_induction {I : State → Prop} {motive : Nat → State → State → Prop}
    (keeps : ∀ s t, I s → step s = .next t → I t) (zero : ∀ s, I s → motive 0 s s)
    (succ : ∀ k s s' t, I s → s.now.rst = false → step s = .next s' → motive k s' t → motive (k + 1) s t)
    (k : Nat) (s t : State) (hI : I s) (hrst : ∀ p ∈ s.moves.take k, p.rst = false)
    (hrun : Sys2Proof.core.run k s = .next t) : motive k s t := by
  induction k generalizing s with
  | zero =>
    rw [run_zero] at hrun
    cases hrun
    exact zero _ hI
  | succ k ih =>
    obtain ⟨s', hstep, hrest⟩ := run_succ_cases hrun
    exact succ k s s' t hI (State.now_of_take hrst rfl) hstep
      (ih s' (keeps s s' hI hstep) (moves_of_take hrst hstep) hrest)

/-! ### What is accepted, taken and answered at a step -/

section
variable {s : State}

theorem State.accepted_of_rspValid (h : s.rspValid = true) : s.accepted = none :=
  State.accepted_of_not_ready (s.not_ready_iff.mpr (.inr (.inl h)))

theorem State.taken_of_not_rspValid (h : s.rspValid = false) : s.taken = none := by
  simp [State.taken, State.outputs, h]

theorem State.taken_of_not_rspReady (h : s.now.rspReady = false) : s.taken = none := by
  simp [State.taken, h]

theorem State.taken_of_rspReady (hrst : s.now.rst = false) (hvalid : s.rspValid = true)
    (htake : s.now.rspReady = true) : s.taken = some s.rw := by
  simp [State.taken, State.outputs, hrst, hvalid, htake]

theorem State.requestAnswered_of_entReq (h : s.outputs.entReq = true) : s.requestAnswered = s.draw := by
  simp [State.requestAnswered, h]

theorem State.requestAnswered_of_not_entReq (h : s.outputs.entReq = false) : s.requestAnswered = none := by
  simp [State.requestAnswered, h]

/-- A request is that of a command in flight or that of the generator command being accepted, never of both. -/
theorem State.request_source (h : s.outputs.entReq = true) :
    (s.inFlight.isSome = true ∧ s.accepted = none) ∨
    (s.inFlight = none ∧ ∃ i, s.accepted = some i ∧ isGenerator i = true) := by
  obtain ⟨-, hflight | hgen⟩ := s.entReq_iff.mp h
  · exact .inl ⟨hflight, State.accepted_of_not_ready (s.not_ready_iff.mpr (.inr (.inr hflight)))⟩
  · obtain ⟨-, hready, -, -⟩ := s.acceptsGenerator_iff.mp hgen
    obtain ⟨-, -, hflight⟩ := s.ready_iff.mp hready
    exact .inr ⟨hflight, s.acceptsGenerator_iff_accepted.mp hgen⟩

/-- While a response waits there is no request. -/
theorem State.entReq_of_rspValid (hinv : s.Inv) (h : s.rspValid = true) : s.outputs.entReq = false := by
  by_contra hreq
  have hvalid := (State.halt_rspValid_of_entReq hinv ((Bool.not_eq_false _).mp hreq)).2
  simp [h] at hvalid
end

/-! ### One response per command, one answer per generator command -/

@[simp] theorem State.pending_advance (s : State) : s.advance.pending = s.pending := rfl

@[simp] theorem State.pending_respond (s : State) (r : Result) : (s.respond r).pending = 1 := rfl

@[simp] theorem State.pending_finish (g : Generator) (s : State) (a : Draw) : (State.finish g s a).pending = 1 := by
  simp [State.pending]

theorem State.pending_le_one {s : State} (hinv : s.Inv) : s.pending ≤ 1 := by
  cases hvalid : s.rspValid with
  | true => simp [State.pending, hvalid, State.inFlight_of_rspValid hinv hvalid]
  | false => simpa [State.pending, hvalid] using Bool.toNat_le _

/-- Where a request stands, the one command it is made for is in flight or being accepted. -/
theorem State.accepted_add_pending_of_entReq {s : State} (hvalid : s.rspValid = false) (h : s.outputs.entReq = true) :
    s.accepted.toList.length + s.pending = 1 := by
  obtain ⟨hflight, hacc⟩ | ⟨hflight, i, hacc, -⟩ := State.request_source h <;>
    simp [State.pending, hvalid, hflight, hacc]

/-- Commands accepted and responses taken at one step, against those pending before and after it (R34). -/
theorem step_balances_responses {s t : State} (hinv : s.Inv) (hrst : s.now.rst = false) (hstep : step s = .next t) :
    s.accepted.toList.length + s.pending = s.taken.toList.length + t.pending := by
  cases stepKind_of_step hstep with
  | reset h => simp [hrst] at h
  | take _ hvalid htake =>
    simp [State.accepted_of_rspValid hvalid, State.taken_of_rspReady hrst hvalid htake, State.pending, hvalid,
      State.inFlight_of_rspValid hinv hvalid]
  | hold _ hvalid htake => simp [State.accepted_of_rspValid hvalid, State.taken_of_not_rspReady htake]
  | codec i r _ hvalid hreq hacc =>
    obtain ⟨hflight, -⟩ := (State.entReq_eq_false_iff hrst).mp hreq
    simp [hacc, State.taken_of_not_rspValid hvalid, State.pending, hvalid, hflight]
  | wait g _ hvalid hreq =>
    rw [State.accepted_add_pending_of_entReq hvalid hreq]
    simp [State.taken_of_not_rspValid hvalid, State.pending, hvalid]
  | finish g a _ hvalid hreq =>
    rw [State.accepted_add_pending_of_entReq hvalid hreq]
    simp [State.taken_of_not_rspValid hvalid]
  | idle _ hvalid _ hacc => simp [hacc, State.taken_of_not_rspValid hvalid]

/-- Settles O50, by induction over the run: each step balances, and so does their sum. -/
theorem oneResponsePerAcceptedCommand : Obligations.OneResponsePerAcceptedCommand := by
  unfold Obligations.OneResponsePerAcceptedCommand
  refine run_induction everyStepKeepsInv (fun s hinv => ?_) fun k s s' t hinv hrst hstep ih => ?_
  · simpa [State.acceptedIn, State.takenIn] using State.pending_le_one hinv
  · have hone := step_balances_responses hinv hrst hstep
    rw [acceptedIn_succ_of_next hstep, takenIn_succ_of_next hstep, List.length_append, List.length_append]
    omega

/-- Without reset `ent_req` is 1 for the one generator command in flight or being accepted. -/
theorem State.accepted_add_inFlight {s : State} (hrst : s.now.rst = false) :
    s.accepted.toList.countP isGenerator + s.inFlight.isSome.toNat = s.outputs.entReq.toNat := by
  cases hreq : s.outputs.entReq with
  | true =>
    obtain ⟨hflight, hacc⟩ | ⟨hflight, i, hacc, hi⟩ := State.request_source hreq
    · simp [hflight, hacc]
    · simp [hflight, hacc, hi]
  | false =>
    obtain ⟨hflight, -⟩ := (State.entReq_eq_false_iff hrst).mp hreq
    cases hacc : s.accepted with
    | none => simp [hflight]
    | some i => simp [hflight, ← State.entReq_of_accepted hacc, hreq]

/-- A request is answered at the step or is that of the command in flight after it (R35, R100). -/
theorem step_answers_request {s t : State} (hinv : s.Inv) (hrst : s.now.rst = false) (hstep : step s = .next t) :
    s.outputs.entReq.toNat = s.requestAnswered.toList.length + t.inFlight.isSome.toNat := by
  have hquiet : s.outputs.entReq = false → t.inFlight = none →
      s.outputs.entReq.toNat = s.requestAnswered.toList.length + t.inFlight.isSome.toNat := by
    intro hreq hflight
    simp [State.requestAnswered_of_not_entReq hreq, hreq, hflight]
  cases stepKind_of_step hstep with
  | reset h => simp [hrst] at h
  | take _ hvalid | hold _ hvalid =>
    exact hquiet (State.entReq_of_rspValid hinv hvalid) (State.inFlight_of_rspValid (s := s) hinv hvalid)
  | codec i r _ _ hreq => exact hquiet hreq rfl
  | wait g _ _ hreq hdraw => simp [State.requestAnswered_of_entReq hreq, hreq, hdraw]
  | finish g a _ _ hreq hdraw => simp [State.requestAnswered_of_entReq hreq, hreq, hdraw]
  | idle _ _ hreq => exact hquiet hreq ((State.entReq_eq_false_iff hrst).mp hreq).1

/-- Settles O51, by induction over the run: at each step the request made is answered or stays in flight. -/
theorem oneAnswerPerGeneratorCommand : Obligations.OneAnswerPerGeneratorCommand := by
  unfold Obligations.OneAnswerPerGeneratorCommand
  refine run_induction everyStepKeepsInv (fun s _ => ?_) fun k s s' t hinv hrst hstep ih => ?_
  · simp [State.acceptedIn, State.answersIn]
  · have hmade := State.accepted_add_inFlight hrst
    have hkept := step_answers_request hinv hrst hstep
    rw [acceptedIn_succ_of_next hstep, answersIn_succ_of_next hstep, List.countP_append, List.length_append]
    omega

/-! ### `HALT` and `RSP_VALID` over a step -/

/-- `HALT` is 1 after a step exactly where no reset cleared it and it was 1 or a request was answered `fail` (R22). -/
theorem step_halt_iff {s t : State} (h : step s = .next t) :
    t.halt = true ↔ s.now.rst = false ∧
      (s.halt = true ∨ (s.rspValid = false ∧ s.outputs.entReq = true ∧ s.draw = some .fail)) := by
  cases stepKind_of_step h with
  | reset hrst => simp [hrst]
  | take hrst hvalid | hold hrst hvalid => simp [hrst, hvalid]
  | codec i r hrst _ hreq _ _ hr => simp [hrst, hreq, hr]
  | wait g hrst _ _ hdraw => simp [hrst, hdraw]
  | finish g a hrst hvalid hreq hdraw => simp [hrst, hvalid, hreq, hdraw]
  | idle hrst _ hreq => simp [hrst, hreq]

/-- `RSP_VALID` is 1 after a step exactly where no reset cleared it and a response waited untaken, or a command
completed: an accepted `ENCODE` or `DECODE`, or a generator command whose request was answered (R23). -/
theorem step_rspValid_iff {s t : State} (h : step s = .next t) :
    t.rspValid = true ↔ s.now.rst = false ∧
      ((s.rspValid = true ∧ s.now.rspReady = false) ∨
        (s.rspValid = false ∧
          ((∃ i, s.accepted = some i ∧ isGenerator i = false) ∨
            (s.outputs.entReq = true ∧ s.draw.isSome = true)))) := by
  cases stepKind_of_step h with
  | reset hrst => simp [hrst]
  | take hrst hvalid htake | hold hrst hvalid htake => simp [hrst, hvalid, htake]
  | codec i r hrst hvalid _ hacc hcodec => simp [hrst, hvalid, hacc, hcodec]
  | wait g hrst hvalid hreq hdraw =>
    have hgen : ∀ i, s.accepted = some i → isGenerator i = true := fun i hacc =>
      (State.entReq_of_accepted hacc).symm.trans hreq
    simpa [hvalid, hdraw] using fun _ => hgen
  | finish g a hrst hvalid hreq hdraw => simp [hrst, hvalid, hreq, hdraw]
  | idle hrst hvalid hreq hacc => simp [hvalid, hreq, hacc]

/-- While a response waits, it is kept over any step but a reset. -/
theorem step_keeps_response {s t : State} (h : step s = .next t) (hrst : s.now.rst = false)
    (hvalid : s.rspValid = true) : t.rspStatus = s.rspStatus ∧ t.rspData = s.rspData := by
  cases stepKind_of_step h with
  | reset hr => simp [hrst] at hr
  | take | hold | idle => exact ⟨rfl, rfl⟩
  | codec _ _ _ hv | wait _ _ hv | finish _ _ _ hv => simp [hvalid] at hv

/-- Settles O42, from what `HALT` is after a step. -/
theorem haltSetByFailedDrawClearedByReset : Obligations.HaltSetByFailedDrawClearedByReset := by
  unfold Obligations.HaltSetByFailedDrawClearedByReset
  intro s t hstep
  have hhalt := step_halt_iff hstep
  refine ⟨fun hrst => ?_, fun hs ht => ?_, fun hrst hdraw hreq => ?_, fun hs ht => ?_, fun hs => ?_⟩
  · simpa [hrst] using hhalt
  · simpa [hs, ht] using hhalt
  · refine hhalt.mpr ⟨hrst, .inr ⟨?_, s.entReq_iff.mpr ⟨hrst, hreq.imp_left And.right⟩, hdraw⟩⟩
    obtain ⟨hvalid, -⟩ | hgen := hreq
    · exact hvalid
    · exact State.rspValid_of_acceptsGenerator hgen
  · obtain ⟨hrst, hs' | ⟨-, hreq, hdraw⟩⟩ := hhalt.mp ht
    · simp [hs] at hs'
    · exact ⟨hrst, hdraw, (s.entReq_iff.mp hreq).2⟩
  · exact State.accepted_of_not_ready (s.not_ready_iff.mpr (.inl hs))

/-- Settles O43, from what `RSP_VALID` is after a step. -/
theorem responseIsNeverOverwritten : Obligations.ResponseIsNeverOverwritten := by
  unfold Obligations.ResponseIsNeverOverwritten
  intro s t hstep
  have hrsp := step_rspValid_iff hstep
  refine ⟨fun hvalid => ⟨State.accepted_of_rspValid hvalid, fun hrst => step_keeps_response hstep hrst hvalid⟩,
    fun hvalid => ?_, fun hvalid => ?_⟩
  · rw [← Bool.not_eq_true, hrsp]
    simp [hvalid, imp_iff_not_or]
  · rw [hrsp]
    exact and_congr_right fun hrst => by simp [hvalid, hrst, isGenerator_eq_false_iff, s.entReq_iff]

/-- Settles O46, by the kind of step: what a request finds at its step and what it leaves. -/
theorem requestStandsUntilItsAnswer : Obligations.RequestStandsUntilItsAnswer := by
  unfold Obligations.RequestStandsUntilItsAnswer
  intro s t hinv hstep
  refine ⟨fun i hacc => by rw [State.entReq_of_accepted hacc], ?_⟩
  cases stepKind_of_step hstep with
  | reset hrst => simp [State.outputs, hrst]
  | take _ hvalid | hold _ hvalid =>
    simp [State.entReq_of_rspValid hinv hvalid, State.inFlight_of_rspValid (s := s) hinv hvalid]
  | codec i r _ _ hreq _ _ hr => simp [hreq, hr]
  | wait g _ hvalid hreq hdraw => simp [hreq, hdraw, hvalid, State.entReq_iff]
  | finish g a _ _ hreq hdraw =>
    have hnone : (State.finish g s a).advance.outputs.entReq = false :=
      State.entReq_of_rspValid (everyStepKeepsInv s _ hinv hstep) (by simp)
    simp [hreq, hdraw, hnone]
  | idle hrst _ hreq => simp [hreq, ((State.entReq_eq_false_iff hrst).mp hreq).1]

/-! ### A response on its way to the host -/

/-- Settles O39: the step is the take, and by `Inv` the core was halted already where the status was 3. -/
theorem takeClearsValidOnly : Obligations.TakeClearsValidOnly := by
  unfold Obligations.TakeClearsValidOnly
  refine ⟨fun s => State.taken_of_not_rspValid, fun s hrst hstray hvalid htake => ?_⟩
  have hact : act s = .next s.take := by rw [act_of_rspValid hvalid, if_pos htake]
  refine ⟨s.take.advance, step_of_act hrst hstray hact, rfl, rfl, rfl, rfl, rfl, rfl,
    State.taken_of_rspReady hrst hvalid htake, fun hinv hstatus => ?_⟩
  have hhalt : s.halt = true := (hinv.2 hvalid).mpr hstatus
  exact ⟨hhalt, State.accepted_of_not_ready ((State.not_ready_iff _).mpr (.inl hhalt)),
    State.taken_of_not_rspValid rfl, State.inFlight_of_rspValid (s := s) hinv hvalid⟩

/-- Settles O31: the command in flight goes on at the step, with the answer it gets. -/
theorem waitingGeneratorEndsWithItsAnswer : Obligations.WaitingGeneratorEndsWithItsAnswer := by
  unfold Obligations.WaitingGeneratorEndsWithItsAnswer
  intro g s hrst hvalid hflight
  have hreq : s.outputs.entReq = true := s.entReq_iff.mpr ⟨hrst, .inl (by simp [hflight])⟩
  have hstep : step s = .next (s.generate g).advance :=
    step_of_act hrst (State.not_strayAnswer_of_entReq hreq) (act_of_inFlight hvalid hflight)
  refine ⟨fun r hdraw => ?_, fun hdraw => ?_⟩
  · rw [State.generate_of_ok hdraw] at hstep
    refine ⟨_, hstep, rfl, rfl, rfl, by simp [Result.halts], ?_⟩
    cases g <;> simp [Generator.shape]
  · rw [State.generate_of_fail hdraw] at hstep
    exact ⟨_, hstep, rfl, rfl, rfl, by simp [Result.halts]⟩

/-! ### One command, from any state that accepts it -/

/-- The end of `DECODE` is a response that the operands alone decide (R15, R20). -/
theorem State.decodeString_result (len : BitVec 8) (chr : Slug) :
    ∃ r : Result, ∀ s : State, s.decodeString len chr = s.respond r := by
  by_cases hlen : len = 22#8
  · subst hlen
    cases hsym : symbolsOf chr with
    | none => exact ⟨.error .invalidCharacter, fun s => s.decodeString_of_invalid hsym⟩
    | some sym => exact ⟨.uuid (unpack sym), fun s => s.decodeString_of_valid hsym⟩
  · exact ⟨.error .invalidLength, fun s => s.decodeString_of_len_ne chr hlen⟩

/-- What a generator command does is decided by the answer of the source alone: a response that is no UUID, or a
wait. -/
theorem exec_result_of_generate {i : Instr} {g : Generator}
    (hexec : ∀ s : State, s.ready = true → exec i s = .next (s.generate g)) (d : Option Draw) :
    (∃ r : Result, (∀ u, r ≠ .uuid u) ∧
      ∀ s : State, s.ready = true → s.draw = d → exec i s = .next (s.respond r)) ∨
    (∃ g : Generator, ∀ s : State, s.ready = true → s.draw = d → exec i s = .next (s.suspend g)) := by
  rcases d with _ | r | _
  · exact .inr ⟨g, fun s hready hd => by rw [hexec s hready, State.generate_of_no_answer hd]⟩
  · exact .inl ⟨.slug (slugOf (g.shape r)), by simp, fun s hready hd => by
      rw [hexec s hready, State.generate_of_ok hd]⟩
  · exact .inl ⟨.error .entropyFailure, by simp, fun s hready hd => by
      rw [hexec s hready, State.generate_of_fail hd, State.raise]⟩

/-- What an accepted command does is decided by the command and the answer of the source: one and the same response from
every state, a UUID for `DECODE` only, or one and the same wait. -/
theorem exec_result (i : Instr) (d : Option Draw) :
    (∃ r : Result, (i.op ≠ 1#2 → ∀ u, r ≠ .uuid u) ∧
      ∀ s : State, s.ready = true → s.draw = d → exec i s = .next (s.respond r)) ∨
    (∃ g : Generator, ∀ s : State, s.ready = true → s.draw = d → exec i s = .next (s.suspend g)) := by
  cases i with
  | encode len top u =>
    exact .inl ⟨.slug (slugOf u), by simp, fun s hready _ => exec_encode_of_ready hready len top u⟩
  | decode len chr =>
    obtain ⟨r, hr⟩ := State.decodeString_result len chr
    exact .inl ⟨r, by simp [Instr.op], fun s hready _ => by rw [exec_decode_of_ready hready, hr]⟩
  | randv4 len data =>
    exact (exec_result_of_generate (fun _ hready => exec_randv4_of_ready hready len data) d).imp_left
      fun ⟨r, hr, hall⟩ => ⟨r, fun _ => hr, hall⟩
  | randnice len data =>
    exact (exec_result_of_generate (fun _ hready => exec_randnice_of_ready hready len data) d).imp_left
      fun ⟨r, hr, hall⟩ => ⟨r, fun _ => hr, hall⟩

/-- A successful response reads the same on the ports from any two states, but for the free bits beside a UUID (R61). -/
theorem State.respond_agree (s s' : State) {r : Result} (h : r.status = 0#2) :
    (s.respond r).uuidOut = (s'.respond r).uuidOut ∧
    ((∀ u, r ≠ .uuid u) → (s.respond r).rspData = (s'.respond r).rspData) := by
  cases r with
  | slug chr => exact ⟨rfl, fun _ => rfl⟩
  | uuid u => exact ⟨by simp, fun hne => absurd rfl (hne u)⟩
  | error e => cases e <;> simp [Result.status, Exc.code] at h

/-- Settles O36: the two states run the same operation, and what it writes agrees. -/
theorem resultsDoNotDependOnHistory : Obligations.ResultsDoNotDependOnHistory := by
  unfold Obligations.ResultsDoNotDependOnHistory
  intro i s s' t t' hready hready' hdraw ht ht'
  obtain ⟨hhalt, hvalid, -⟩ := s.ready_iff.mp hready
  obtain ⟨hhalt', hvalid', -⟩ := s'.ready_iff.mp hready'
  obtain ⟨r, hop, hr⟩ | ⟨g, hg⟩ := exec_result i s'.draw
  · obtain rfl := Host.Outcome.next.inj (ht.symm.trans (hr s hready hdraw))
    obtain rfl := Host.Outcome.next.inj (ht'.symm.trans (hr s' hready' rfl))
    refine ⟨by simp [hhalt, hhalt'], rfl, rfl, fun _ => ⟨rfl, fun hok => ?_⟩⟩
    obtain ⟨huuid, hdata⟩ := s.respond_agree s' hok
    exact ⟨huuid, fun hne => hdata (hop hne)⟩
  · obtain rfl := Host.Outcome.next.inj (ht.symm.trans (hg s hready hdraw))
    obtain rfl := Host.Outcome.next.inj (ht'.symm.trans (hg s' hready' rfl))
    simp [hhalt, hhalt', hvalid, hvalid']

/-- Settles O30: an accepted generator command without its answer is suspended. -/
theorem unansweredGeneratorWaits : Obligations.UnansweredGeneratorWaits := by
  unfold Obligations.UnansweredGeneratorWaits
  intro len data s hready hdraw
  rw [exec_randv4_of_ready hready, exec_randnice_of_ready hready, State.generate_of_no_answer hdraw,
    State.generate_of_no_answer hdraw]
  exact ⟨rfl, rfl⟩

/-- Settles O37: each of the three reasons makes the core not ready. -/
theorem nothingAcceptedUnlessReady : Obligations.NothingAcceptedUnlessReady := by
  unfold Obligations.NothingAcceptedUnlessReady
  intro i s hbusy
  have hready := s.not_ready_iff.mpr hbusy
  exact ⟨exec_of_not_ready hready i, by simp [State.outputs, hready], State.accepted_of_not_ready hready⟩

/-- A command goes on from every state and leaves the input ports alone. -/
theorem exec_next (i : Instr) (s : State) : ∃ t, exec i s = .next t ∧ t.now = s.now := by
  obtain ⟨-, h⟩ | ⟨-, r, h⟩ | ⟨-, -, g, h⟩ := exec_cases i s
  · exact ⟨s, h, rfl⟩
  · exact ⟨s.respond r, h, rfl⟩
  · exact ⟨s.suspend g, h, rfl⟩

/-- Settles O38: the core's act is the presented command, and the end of the step reads the same ports. -/
theorem stepRunsThePresentedCommand : Obligations.StepRunsThePresentedCommand := by
  unfold Obligations.StepRunsThePresentedCommand
  intro s hrst hvalid hflight hcmd hstray
  obtain ⟨t, hexec, hnow⟩ := exec_next (decodeWord s.now.cw) s
  have hact : act s = .next t := by simp [act, hvalid, hflight, hcmd, hexec]
  refine ⟨t, hexec, ?_⟩
  rw [step_of_act hrst hstray hact, State.advance, hnow]

/-! ### Reset and the output ports -/

/-- Settles O40: reset comes before everything else a step looks at. -/
theorem resetWorksInEveryState : Obligations.ResetWorksInEveryState := by
  unfold Obligations.ResetWorksInEveryState
  intro s hrst
  exact ⟨s.applyReset.advance, step_of_rst hrst, rfl, rfl, rfl, rfl, rfl⟩

/-- Settles O44, by evaluating the reset state. -/
theorem resetStateIsIdle : Obligations.ResetStateIsIdle := by
  unfold Obligations.ResetStateIsIdle
  decide

/-- Settles O45, port by port. -/
theorem outputPortsFollowTheState : Obligations.OutputPortsFollowTheState := by
  unfold Obligations.OutputPortsFollowTheState
  intro s
  refine ⟨fun hrst => by simp [State.outputs, hrst], fun hrst => ⟨?_, ?_, ?_, ?_⟩, rfl, rfl⟩
  · simp [State.outputs, hrst]
  · simp [State.outputs, hrst]
  · simp [s.entReq_iff, hrst]
  · rw [← s.ready_iff]
    simp [State.outputs, hrst]

end Sys2Proof.Machine

/-! ## Memory (spec/20_memory.md): every width is cut from the sequence of document bits -/

namespace Sys2Proof.Machine

/-- A window of `w` bits of a value whose bit `b` is document bit `k`: the bits above the window and the bits before `b`
add up to `k` (R45). -/
theorem getMsbD_extractLsb'_eq_ubit (u : UUID) {start w b k : Nat} (hb : b < w) (hk : k + (start + w) = 128 + b) :
    (u.extractLsb' start w).getMsbD b = ubit u k := by
  have hindex : start + (w - 1 - b) = 127 - k := by omega
  rw [ubit_of_lt u (by omega), BitVec.getMsbD, BitVec.getLsbD_extractLsb', hindex]
  simp [hb, show w - 1 - b < w by omega]

/-- Byte `j` is document bits `8j` to `8j+7` (R45). -/
theorem byte_getMsbD (u : UUID) {j b : Nat} (hj : j < 16) (hb : b < 8) : (byte u j).getMsbD b = ubit u (8 * j + b) :=
  getMsbD_extractLsb'_eq_ubit u hb (by omega)

/-- Hexadecimal digit `d` is document bits `4d` to `4d+3` (R45). -/
theorem hexDigit_getMsbD (u : UUID) {d b : Nat} (hd : d < 32) (hb : b < 4) :
    (hexDigit u d).getMsbD b = ubit u (4 * d + b) :=
  getMsbD_extractLsb'_eq_ubit u hb (by omega)

/-- A value is the sequence of its 128 document bits (R45). -/
theorem eq_of_ubit_eq {u v : UUID} (h : ∀ k : Nat, k < 128 → ubit u k = ubit v k) : u = v :=
  BitVec.eq_of_getMsbD_eq h

/-- Settles O9: byte and hexadecimal digit are windows of the value, a symbol is a window of the value followed by the
four zeros past document bit 127. -/
theorem everyWidthIsCutFromOneSequence : Obligations.EveryWidthIsCutFromOneSequence := by
  unfold Obligations.EveryWidthIsCutFromOneSequence
  refine ⟨fun u => ⟨?_, ?_, ?_, ?_⟩, ?_⟩
  · exact fun _ _ hj hb => byte_getMsbD u hj hb
  · exact fun _ _ hd hb => hexDigit_getMsbD u hd hb
  · exact fun i hi b hb => pack_getMsbD u i b hi hb
  · exact fun _ hk => ubit_of_ge u hk
  · exact fun _ _ h => eq_of_ubit_eq h

end Sys2Proof.Machine

/-! ## The command word (spec/30_encoding.md) -/

namespace Sys2Proof.Machine

/-! ### Decoding and encoding, by opcode and by field -/

/-- What a word decodes to, by its opcode, from the fields it is put together of (R50 to R52, R54, R55). -/
theorem decodeWord_encode (data : Bus) (len : BitVec 8) :
    decodeWord (commandWord data len 0#2) = .encode len (data.extractLsb' 128 48) (data.extractLsb' 0 128) := by
  simp [decodeWord]

theorem decodeWord_decode (data : Bus) (len : BitVec 8) :
    decodeWord (commandWord data len 1#2) = .decode len (lanes data) := by
  simp [decodeWord]

theorem decodeWord_randv4 (data : Bus) (len : BitVec 8) :
    decodeWord (commandWord data len 2#2) = .randv4 len data := by
  simp [decodeWord]

theorem decodeWord_randnice (data : Bus) (len : BitVec 8) :
    decodeWord (commandWord data len 3#2) = .randnice len data := by
  simp [decodeWord]

@[simp] theorem decodeWord_lenField (cw : CommandWord) : (decodeWord cw).lenField = CommandWord.len cw := by
  unfold decodeWord
  split <;> rfl

@[simp] theorem decodeWord_dataField (cw : CommandWord) : (decodeWord cw).dataField = CommandWord.data cw := by
  unfold decodeWord
  split
  · exact BitVec.extractLsb'_append_extractLsb'
  · exact ofLanes_lanes _
  · rfl
  · rfl

/-- No command is illegal (R62). -/
@[simp] theorem wellFormed_eq_true (i : Instr) : i.wellFormed = true := by
  cases i <;> rfl

/-- Settles O1, by the constructor: each field that was put in its place is cut out of it again. -/
theorem decodeOfEncodeIsTheCommand : Obligations.DecodeOfEncodeIsTheCommand := by
  unfold Obligations.DecodeOfEncodeIsTheCommand
  intro i _
  cases i with
  | encode len hi u =>
    calc decodeWord (commandWord (hi ++ u) len 0#2)
        = .encode len ((hi ++ u).extractLsb' 128 48) ((hi ++ u).extractLsb' 0 128) := decodeWord_encode _ _
      _ = .encode len hi u := by rw [BitVec.extractLsb'_append_eq_left, BitVec.extractLsb'_append_eq_right]
  | decode len chr =>
    calc decodeWord (commandWord (ofLanes chr) len 1#2)
        = .decode len (lanes (ofLanes chr)) := decodeWord_decode _ _
      _ = .decode len chr := by rw [lanes_ofLanes]
  | randv4 len data => exact decodeWord_randv4 data len
  | randnice len data => exact decodeWord_randnice data len

/-- Settles O2: decoding keeps all three fields of the word, and a word is its fields put together. -/
theorem everyWordIsItsCommandsWord : Obligations.EveryWordIsItsCommandsWord := by
  unfold Obligations.EveryWordIsItsCommandsWord
  intro cw
  refine ⟨?_, wellFormed_eq_true _, decodeWord_op cw⟩
  rw [encodeWord, decodeWord_dataField, decodeWord_lenField, decodeWord_op, commandWord_fields]

/-- A string of one character, so long that its length saturates (R53, R55). -/
theorem assembleDecode_replicate {n : Nat} (h : 255 ≤ n) (c : Code) :
    assembleDecode (List.replicate n c) = .decode 255#8 (Vector.replicate 22 c) := by
  rw [assembleDecode, List.length_replicate, Nat.min_eq_right h]
  refine congrArg (Instr.decode 255#8) (Vector.ext fun i hi => ?_)
  simp [show i < n by omega]

/-- Settles O3, by evaluating the decoder on each word, the 300 characters of one string cut to 22 lanes first. -/
theorem specWordsDecodeAsListed : Obligations.SpecWordsDecodeAsListed := by
  unfold Obligations.SpecWordsDecodeAsListed
  have hlong := assembleDecode_replicate (n := 300) (by decide) 0x41#8
  refine ⟨?_, ?_, ?_, Eq.trans ?_ hlong.symm, ?_, ?_, ?_⟩ <;> decide

/-! ### The ignored bits -/

/-- The length and the characters decide what `DECODE` does, and the characters only where the length is 22 (R91,
R126). -/
theorem exec_decode_congr {len : BitVec 8} {chr chr' : Slug} (h : len = 22#8 → chr = chr') (s : State) :
    exec (.decode len chr) s = exec (.decode len chr') s := by
  by_cases hlen : len = 22#8
  · rw [h hlen]
  · simp only [exec, execDecode, State.decodeString_of_len_ne _ _ hlen]

/-- Two words that differ in ignored bits only decode to commands that do the same in every state (R56). -/
theorem exec_decodeWord_congr {cw cw' : CommandWord} (hop : CommandWord.op cw = CommandWord.op cw')
    (hencode : CommandWord.op cw = 0#2 →
      (CommandWord.data cw).extractLsb' 0 128 = (CommandWord.data cw').extractLsb' 0 128)
    (hdecode : CommandWord.op cw = 1#2 → CommandWord.len cw = CommandWord.len cw' ∧
      (CommandWord.len cw = 22#8 → CommandWord.data cw = CommandWord.data cw'))
    (s : State) : exec (decodeWord cw) s = exec (decodeWord cw') s := by
  unfold decodeWord
  rw [← hop]
  split
  next h => simp only [exec, execEncode, hencode h]
  next h =>
    obtain ⟨hlen, hdata⟩ := hdecode h
    rw [← hlen]
    exact exec_decode_congr (fun h22 => by rw [hdata h22]) s
  next => rfl
  next => rfl

section
variable (s : State) (cw : CommandWord)

@[simp] theorem Inputs.cw_present (p : Inputs) : (p.present cw).cw = cw := commandWord_fields cw

@[simp] theorem Inputs.cmdValid_present (p : Inputs) : (p.present cw).cmdValid = true := rfl

/-- What is presented at a step is used up at its end: no trace of it is left in the next state. -/
@[simp] theorem State.advance_presenting : (s.presenting cw).advance = s.advance := rfl

/-- What the core writes is the same whatever is presented, and leaves what is presented in place. -/
theorem State.respond_presenting (r : Result) : (s.presenting cw).respond r = (s.respond r).presenting cw := rfl

theorem State.suspend_presenting (g : Generator) : (s.presenting cw).suspend g = (s.suspend g).presenting cw := rfl

theorem State.generate_presenting (g : Generator) : (s.presenting cw).generate g = (s.generate g).presenting cw := by
  have hdraw : (s.presenting cw).draw = s.draw := rfl
  rcases h : s.draw with _ | r | _
  · rw [generate_of_no_answer h, generate_of_no_answer (hdraw.trans h), suspend_presenting]
  · rw [generate_of_ok h, generate_of_ok (hdraw.trans h), respond_presenting]
  · rw [generate_of_fail h, generate_of_fail (hdraw.trans h), raise, raise, respond_presenting]

/-- What a command does is the same whatever is presented, and leaves what is presented in place. -/
theorem exec_presenting (i : Instr) : ∃ t, ∀ cw, exec i (s.presenting cw) = .next (State.presenting t cw) := by
  cases hready : s.ready with
  | false => exact ⟨s, fun cw => exec_of_not_ready (s := s.presenting cw) hready i⟩
  | true =>
    obtain ⟨r, -, hr⟩ | ⟨g, hg⟩ := exec_result i s.draw
    · exact ⟨s.respond r, fun cw => hr (s.presenting cw) hready rfl⟩
    · exact ⟨s.suspend g, fun cw => hg (s.presenting cw) hready rfl⟩

end

section
variable {s : State} {cw cw' : CommandWord}

/-- Where the commands of two words do the same in every state, so does the core, whichever is presented. -/
theorem act_presenting_congr (hexec : ∀ s, exec (decodeWord cw) s = exec (decodeWord cw') s) :
    ∃ t, act (s.presenting cw) = .next (State.presenting t cw) ∧
      act (s.presenting cw') = .next (State.presenting t cw') := by
  cases hvalid : s.rspValid with
  | true =>
    have hact (w : CommandWord) :
        act (s.presenting w) = .next (State.presenting (if s.now.rspReady then s.take else s) w) := by
      have hready : (s.presenting w).now.rspReady = s.now.rspReady := rfl
      rw [act_of_rspValid (s := s.presenting w) hvalid, hready]
      split <;> rfl
    exact ⟨_, hact cw, hact cw'⟩
  | false =>
    cases hflight : s.inFlight with
    | some g =>
      have hact (w : CommandWord) : act (s.presenting w) = .next ((s.generate g).presenting w) := by
        rw [act_of_inFlight (s := s.presenting w) hvalid hflight, State.generate_presenting]
      exact ⟨_, hact cw, hact cw'⟩
    | none =>
      have hact (w : CommandWord) : act (s.presenting w) = exec (decodeWord w) (s.presenting w) := by
        simp [act, hvalid, hflight]
      obtain ⟨t, ht⟩ := exec_presenting s (decodeWord cw')
      exact ⟨t, by rw [hact, hexec, ht], by rw [hact, ht]⟩

/-- Whether an answer at the step is a stray one depends on the opcode of the word presented, and on no more of it. -/
theorem State.strayAnswer_presenting_congr (hop : CommandWord.op cw = CommandWord.op cw') :
    (s.presenting cw).strayAnswer = (s.presenting cw').strayAnswer := by
  have hgen : (s.presenting cw).acceptsGenerator = (s.presenting cw').acceptsGenerator := by
    simp only [State.acceptsGenerator, State.presenting_now, Inputs.present, hop]
    rfl
  simp only [State.strayAnswer, State.outputs, hgen]
  rfl

/-- Two words with one opcode, whose commands do the same in every state, give the same step. -/
theorem step_presenting_congr (hop : CommandWord.op cw = CommandWord.op cw')
    (hexec : ∀ s, exec (decodeWord cw) s = exec (decodeWord cw') s) :
    step (s.presenting cw) = step (s.presenting cw') := by
  obtain ⟨t, hact, hact'⟩ := act_presenting_congr (s := s) hexec
  have hstray' := State.strayAnswer_presenting_congr (s := s) hop
  cases hstray : (s.presenting cw).strayAnswer with
  | true => rw [step_of_stray rfl hstray, step_of_stray rfl (hstray'.symm.trans hstray)]
  | false =>
    rw [step_of_act rfl hstray hact, step_of_act rfl (hstray'.symm.trans hstray) hact', State.advance_presenting,
      State.advance_presenting]

end

/-- The lanes at and beyond the length of an assembled string are zero (R55, R56). -/
theorem assembleDecode_assembled (str : List Code) : (assembleDecode str).assembled = true := by
  simp only [assembleDecode, Instr.assembled, decide_eq_true_eq]
  intro i hi
  have hlen : str.length ≤ i.val := by
    rw [BitVec.toNat_ofNat, Nat.mod_eq_of_lt (by omega)] at hi
    omega
  simp [hlen]

/-- Settles O4: the commands of the two words do the same in every state, and so do the two steps. -/
theorem ignoredBitsHaveNoEffect : Obligations.IgnoredBitsHaveNoEffect := by
  unfold Obligations.IgnoredBitsHaveNoEffect
  exact ⟨fun _ _ _ hop hencode hdecode => step_presenting_congr hop (exec_decodeWord_congr hop hencode hdecode),
    fun _ => wellFormed_eq_true _, fun _ => rfl, assembleDecode_assembled, rfl, rfl⟩

/-! ### The answer on the entropy ports -/

section
variable {p : Inputs}

/-- When both flags are up the answer is `fail` (R66). -/
theorem Inputs.answer_of_entFail (h : p.entFail = true) : p.answer = some .fail := by
  simp [Inputs.answer, h]

theorem Inputs.answer_of_entValid (hvalid : p.entValid = true) (hfail : p.entFail = false) :
    p.answer = some (.ok p.entData) := by
  simp [Inputs.answer, hvalid, hfail]

theorem Inputs.answer_of_quiet (hvalid : p.entValid = false) (hfail : p.entFail = false) : p.answer = none := by
  simp [Inputs.answer, hvalid, hfail]

/-- The bits of an answer are those of the data port (R66). -/
theorem Inputs.eq_entData_of_answer {r : UUID} (h : p.answer = some (.ok r)) : r = p.entData := by
  unfold Inputs.answer at h
  split at h
  · simp at h
  · split at h
    · simpa using h.symm
    · simp at h

end

/-- Settles O32, by the two flags; the drawn bits are the data port's, read in the document's order. -/
theorem entropyAnswerFromThePorts : Obligations.EntropyAnswerFromThePorts := by
  unfold Obligations.EntropyAnswerFromThePorts
  refine fun p => ⟨Inputs.answer_of_entFail, Inputs.answer_of_entValid, Inputs.answer_of_quiet, fun r k h hk => ?_⟩
  rw [Inputs.eq_entData_of_answer h, ubit_of_lt _ hk]

end Sys2Proof.Machine

/-! ## The alphabet (spec/40_alphabet.md) -/

namespace Sys2Proof.Machine

/-- The default of `s2c` is never read: the table has an entry at every symbol (R41, R71). -/
theorem alpha_getElem?_toNat (v : Symbol) : alpha[v.toNat]? = some (s2c v) := by
  have hlt : v.toNat < alpha.length := v.isLt
  rw [s2c, List.getD_eq_getElem _ _ hlt, List.getElem?_eq_getElem hlt]

/-- The closed form of R71 on the numbers of the codes, where no sum wraps. -/
theorem s2c_toNat (v : Symbol) : (s2c v).toNat =
    if v.toNat ≤ 25 then 0x41 + v.toNat
    else if v.toNat ≤ 51 then 0x61 + (v.toNat - 26)
    else if v.toNat ≤ 61 then 0x30 + (v.toNat - 52)
    else if v.toNat = 62 then 0x2D
    else 0x5F := by
  revert v
  decide

/-- The search fails exactly off the alphabet (R72). -/
theorem c2s_eq_none_iff (c : Code) : c2s c = none ↔ c ∉ alpha := by
  simp only [Option.eq_none_iff_forall_ne_some, ne_eq, c2s_eq_some_iff, mem_alpha_iff, not_exists]

/-- A code repeated in the table would give two symbols one character. -/
theorem alpha_nodup : alpha.Nodup := by
  have hget : ∀ i : Fin alpha.length, alpha[i] = s2c (BitVec.ofFin i) := fun i =>
    (List.getD_eq_getElem _ _ i.isLt).symm
  refine List.nodup_iff_injective_getElem.mpr fun i j h => ?_
  exact congrArg BitVec.toFin (s2c_injective ((hget i).symm.trans (h.trans (hget j))))

/-- Settles O5: a code is its number as eight bits, and the number has the closed form. -/
theorem symbolToCharacterClosedForm : Obligations.SymbolToCharacterClosedForm := by
  unfold Obligations.SymbolToCharacterClosedForm
  refine fun v => ⟨alpha_getElem?_toNat v, ?_⟩
  have hcode : s2c v = BitVec.ofNat 8 (s2c v).toNat := by simp
  simpa only [s2c_toNat, apply_ite (BitVec.ofNat 8)] using hcode

/-- Settles O6: in each of the five ranges the symbol has the code `c`, and a symbol with the code `c` puts `c` in one of
the ranges. -/
theorem characterToSymbolClosedForm : Obligations.CharacterToSymbolClosedForm := by
  unfold Obligations.CharacterToSymbolClosedForm
  refine fun c => ⟨fun v => by rw [c2s_eq_some_iff, alpha_getElem?_toNat, Option.some_inj], ?_⟩
  split_ifs
  case neg =>
    refine Option.eq_none_iff_forall_ne_some.mpr fun v hv => ?_
    have hcode := s2c_toNat v
    rw [(c2s_eq_some_iff c v).mp hv] at hcode
    have hlt : v.toNat < 64 := v.isLt
    split_ifs at hcode <;> omega
  all_goals
    refine (c2s_eq_some_iff _ _).mpr (BitVec.eq_of_toNat_eq ?_)
    rw [s2c_toNat, BitVec.toNat_ofNat]
    split_ifs <;> omega

/-- Settles O7: each lookup is the other's inverse on the alphabet, and the search fails elsewhere. -/
theorem alphabetIsABijection : Obligations.AlphabetIsABijection := by
  unfold Obligations.AlphabetIsABijection
  refine ⟨rfl, alpha_nodup, fun v => ⟨(mem_alpha_iff _).mpr ⟨v, rfl⟩, c2s_s2c v⟩, fun c => ⟨fun hc => ?_, ?_⟩⟩
  · obtain ⟨v, hv⟩ := (mem_alpha_iff c).mp hc
    exact ⟨v, (c2s_eq_some_iff c v).mpr hv, hv⟩
  · exact (c2s_eq_none_iff c).mpr

end Sys2Proof.Machine

/-! ## The codec (spec/41_codec.md) -/

namespace Sys2Proof.Machine

/-! ### Windows of a value -/

/-- A window of a window is a window. -/
theorem extractLsb'_extractLsb'_of_add_le {n start len start' len' : Nat} (x : BitVec n) (h : start' + len' ≤ len) :
    (x.extractLsb' start len).extractLsb' start' len' = x.extractLsb' (start + start') len' := by
  refine BitVec.eq_of_getLsbD_eq fun k hk => ?_
  simp [hk, show start' + k < len by omega, Nat.add_assoc]

/-- A shift and a mask cut out a symbol (R81). -/
theorem setWidth_and_mask {n : Nat} (x : BitVec n) (hn : 6 ≤ n) : (x &&& 63#n).setWidth 6 = x.setWidth 6 := by
  have hmask : (63#n).setWidth 6 = BitVec.allOnes 6 := BitVec.setWidth_ofNat_of_le hn 63
  rw [BitVec.setWidth_and, hmask, BitVec.and_allOnes]

/-- The last symbol as a mask and a shift: two bits, then four zeros (R81, R82). -/
theorem extractLsb'_append_zeros_eq_mask {n : Nat} (x : BitVec n) (hn : 6 ≤ n) :
    x.extractLsb' 0 2 ++ 0#4 = ((x &&& 3#n) <<< 4).setWidth 6 := by
  have hmask : (3#n).setWidth 6 = 3#6 := BitVec.setWidth_ofNat_of_le hn 3
  have hsymbol : ∀ v : Symbol, v.extractLsb' 0 2 ++ 0#4 = (v &&& 3#6) <<< 4 := by decide
  rw [← BitVec.extractLsb'_setWidth_of_le (w' := 6) (by decide), hsymbol, BitVec.setWidth_shiftLeft_of_le hn,
    BitVec.setWidth_and, hmask]

/-! ### The symbols of `PACK` and `UNPACK` as windows -/

/-- Symbols 0 to 20 of `PACK` are windows of the value (R80). -/
theorem pack_getElem_of_lt (u : UUID) {i : Nat} (hi : i < 21) : (pack u)[i] = u.extractLsb' (122 - 6 * i) 6 := by
  simp only [pack, Vector.getElem_ofFn]
  rw [BitVec.extractLsb'_append_eq_of_le (by omega)]
  congr 1
  omega

/-- The last symbol of `PACK` is the value's last two bits and the four zeros (R80, R83). -/
theorem pack_last (u : UUID) : (pack u)[21] = u.extractLsb' 0 2 ++ 0#4 := by
  simp only [pack, Vector.getElem_ofFn]
  rw [← BitVec.extractLsb'_append_extractLsb'_eq_extractLsb' (start₂ := 4) (len₁ := 4) rfl,
    BitVec.extractLsb'_append_eq_of_le (by decide), BitVec.extractLsb'_append_eq_right]

/-- Each symbol is a window of the 132 bits that `UNPACK` puts together (R84). -/
theorem extractLsb'_concatBE (sym : SymVec) {i : Nat} (hi : i < 22) :
    (concatBE 132 sym.toList).extractLsb' (126 - 6 * i) 6 = sym[i] := by
  refine BitVec.eq_of_getLsbD_eq fun k hk => ?_
  have hlen : sym.toList.length = 22 := by simp
  have hindex : 22 - 1 - (126 - 6 * i + k) / 6 = i := by omega
  have hbit : (126 - 6 * i + k) % 6 = k := by omega
  rw [BitVec.getLsbD_extractLsb', concatBE_getLsbD (by decide) _ (by simp) _ (by simp; omega), hlen, hindex, hbit]
  simp [hk, hi]

theorem symVec_ext {sym sym' : SymVec} (h : ∀ (i : Nat) (_ : i < 21), sym[i] = sym'[i]) (hlast : sym[21] = sym'[21]) :
    sym = sym' := by
  refine Vector.ext fun i hi => ?_
  rcases Nat.lt_or_ge i 21 with hlt | hge
  · exact h i hlt
  · obtain rfl : i = 21 := by omega
    exact hlast

/-- A symbol is its upper two bits and its lower four. -/
theorem symbol_eq_append (v : Symbol) : v.extractLsb' 4 2 ++ v.extractLsb' 0 4 = v :=
  BitVec.extractLsb'_append_extractLsb'

/-! ### The round trips, as datapath -/

/-- `PACK` loses nothing (R87). -/
@[simp] theorem unpack_pack (u : UUID) : unpack (pack u) = u := by
  refine BitVec.eq_of_getLsbD_eq fun k hk => ?_
  rw [unpack_getLsbD _ k hk, pack_getLsbD _ _ _ _ (by omega), if_neg (by omega)]
  congr 1
  omega

theorem pack_injective : Function.Injective pack := Function.LeftInverse.injective unpack_pack

/-- `PACK` gives symbols 0 to 20 back (R88). -/
theorem pack_unpack_getElem (sym : SymVec) {i : Nat} (hi : i < 21) : (pack (unpack sym))[i] = sym[i] := by
  rw [pack_getElem_of_lt _ hi, unpack, extractLsb'_extractLsb'_of_add_le _ (by omega), ← extractLsb'_concatBE sym]
  congr 1
  omega

/-- `PACK` gives the upper two bits of the last symbol back, and zeros for the lower four (R88). -/
theorem pack_unpack_last (sym : SymVec) : (pack (unpack sym))[21] = sym[21].extractLsb' 4 2 ++ 0#4 := by
  rw [pack_last, unpack, extractLsb'_extractLsb'_of_add_le _ (by decide), ← extractLsb'_concatBE sym (by decide),
    extractLsb'_extractLsb'_of_add_le _ (by decide)]

/-- Every output of `PACK` is canonical (R83). -/
theorem canonical_pack (u : UUID) : canonical (pack u) := by
  rw [canonical, pack_last, BitVec.extractLsb'_append_eq_right]

/-- `PACK` undoes `UNPACK` on the canonical vectors and on no other (R88). -/
theorem pack_unpack_eq_iff (sym : SymVec) : pack (unpack sym) = sym ↔ canonical sym := by
  refine ⟨fun h => h ▸ canonical_pack (unpack sym), fun h => ?_⟩
  refine symVec_ext (fun i hi => pack_unpack_getElem sym hi) ?_
  rw [pack_unpack_last, ← h, symbol_eq_append]

/-- `UNPACK` forgets the lower four bits of the last symbol and nothing else (R89). -/
theorem unpack_eq_iff (sym sym' : SymVec) : unpack sym = unpack sym' ↔
    (∀ (i : Nat) (_ : i < 21), sym[i] = sym'[i]) ∧ sym[21].extractLsb' 4 2 = sym'[21].extractLsb' 4 2 := by
  constructor
  · intro h
    refine ⟨fun i hi => ?_, ?_⟩
    · rw [← pack_unpack_getElem sym hi, h, pack_unpack_getElem sym' hi]
    · rw [← BitVec.append_left_inj 0#4, ← pack_unpack_last, h, pack_unpack_last]
  · rintro ⟨hinit, hlast⟩
    refine pack_injective (symVec_ext (fun i hi => ?_) ?_)
    · rw [pack_unpack_getElem sym hi, hinit i hi, pack_unpack_getElem sym' hi]
    · rw [pack_unpack_last, hlast, pack_unpack_last]

/-- Settles O8: a window is a shift and a mask, and a symbol is a window of the document's bits. -/
theorem packSymbolBySymbol : Obligations.PackSymbolBySymbol := by
  unfold Obligations.PackSymbolBySymbol
  refine fun u => ⟨fun i hi => ?_, ?_, fun k hk => ?_⟩
  · rw [pack_getElem_of_lt u hi, setWidth_and_mask _ (by decide), BitVec.setWidth_ushiftRight_eq_extractLsb]
  · rw [pack_last, extractLsb'_append_zeros_eq_mask _ (by decide)]
  · have hmod : k % 6 < 6 := Nat.mod_lt k (by decide)
    have hbit := pack_getMsbD u (k / 6) (k % 6) (by omega) hmod
    rw [Nat.div_add_mod] at hbit
    simpa [BitVec.getMsbD, hmod] using hbit

/-- Settles O15, from the two round trips. -/
theorem codecBijectiveOnCanonicalSlugs : Obligations.CodecBijectiveOnCanonicalSlugs := by
  unfold Obligations.CodecBijectiveOnCanonicalSlugs
  refine ⟨fun u v h => pack_injective h, fun sym => ⟨fun h => ⟨unpack sym, (pack_unpack_eq_iff sym).mpr h⟩, ?_⟩,
    fun u => ⟨pack u, unpack_pack u⟩, unpack_eq_iff⟩
  rintro ⟨u, rfl⟩
  exact canonical_pack u

/-! ### Three bytes are four symbols -/

/-- The four symbols of 24 bits, from the three bytes (R82). -/
theorem symbols_of_bytes (w : BitVec 24) :
    w.extractLsb' 18 6 = (w.extractLsb' 16 8 >>> 2).setWidth 6 ∧
    w.extractLsb' 12 6 = (((w.extractLsb' 16 8 &&& 0x03#8) <<< 4) ||| (w.extractLsb' 8 8 >>> 4)).setWidth 6 ∧
    w.extractLsb' 6 6 = (((w.extractLsb' 8 8 &&& 0x0F#8) <<< 2) ||| (w.extractLsb' 0 8 >>> 6)).setWidth 6 ∧
    w.extractLsb' 0 6 = (w.extractLsb' 0 8 &&& 0x3F#8).setWidth 6 := by
  refine ⟨?_, ?_, ?_, ?_⟩
  all_goals
    refine BitVec.eq_of_getLsbD_eq fun k hk => ?_
    interval_cases k <;> simp

/-- The three bytes of 24 bits, from the four symbols (R85). -/
theorem bytes_of_symbols (w : BitVec 24) :
    w.extractLsb' 16 8 = ((w.extractLsb' 18 6).setWidth 8 <<< 2) ||| ((w.extractLsb' 12 6).setWidth 8 >>> 4) ∧
    w.extractLsb' 8 8 =
      (((w.extractLsb' 12 6).setWidth 8 &&& 0x0F#8) <<< 4) ||| ((w.extractLsb' 6 6).setWidth 8 >>> 2) ∧
    w.extractLsb' 0 8 = (((w.extractLsb' 6 6).setWidth 8 &&& 0x03#8) <<< 6) ||| (w.extractLsb' 0 6).setWidth 8 := by
  refine ⟨?_, ?_, ?_⟩
  all_goals
    refine BitVec.eq_of_getLsbD_eq fun k hk => ?_
    interval_cases k <;> simp

/-- The 132 bits that a symbol vector and a value share: the symbols are windows of all of them, and the value is all but
the last four (R80, R84). -/
structure SharedBits (bits : BitVec 132) (sym : SymVec) (u : UUID) : Prop where
  symbol : ∀ (i : Nat) (_ : i < 22), sym[i] = bits.extractLsb' (126 - 6 * i) 6
  value : u = bits.extractLsb' 4 128

theorem sharedBits_pack (u : UUID) : SharedBits (u ++ 0#4) (pack u) u where
  symbol i hi := by simp [pack]
  value := BitVec.extractLsb'_append_eq_left.symm

theorem sharedBits_unpack (sym : SymVec) : SharedBits (concatBE 132 sym.toList) sym (unpack sym) where
  symbol _ hi := (extractLsb'_concatBE sym hi).symm
  value := rfl

section
variable {bits : BitVec 132} {sym : SymVec} {u : UUID}

/-- Symbol `i` as a window of a window of the shared bits. -/
theorem SharedBits.symbol_of_window (h : SharedBits bits sym u) {i start len start' : Nat} (hi : i < 22)
    (hlen : start' + 6 ≤ len) (hstart : start + start' + 6 * i = 126) :
    sym[i] = (bits.extractLsb' start len).extractLsb' start' 6 := by
  rw [h.symbol i hi, extractLsb'_extractLsb'_of_add_le _ hlen]
  congr 1
  omega

/-- Byte `j` as a window of a window of the shared bits. -/
theorem SharedBits.byte_of_window (h : SharedBits bits sym u) {j start len start' : Nat} (hj : j < 16)
    (hlen : start' + 8 ≤ len) (hstart : start + start' + 8 * j = 124) :
    byte u j = (bits.extractLsb' start len).extractLsb' start' 8 := by
  rw [byte, h.value, extractLsb'_extractLsb'_of_add_le _ (by omega), extractLsb'_extractLsb'_of_add_le _ hlen]
  congr 1
  omega

/-- Symbols `4g` to `4g+3` and bytes `3g` to `3g+2` are the same 24 bits. -/
theorem SharedBits.group (h : SharedBits bits sym u) {g : Nat} (hg : g < 5) : ∃ w : BitVec 24,
    sym[4 * g] = w.extractLsb' 18 6 ∧ sym[4 * g + 1] = w.extractLsb' 12 6 ∧
    sym[4 * g + 2] = w.extractLsb' 6 6 ∧ sym[4 * g + 3] = w.extractLsb' 0 6 ∧
    byte u (3 * g) = w.extractLsb' 16 8 ∧ byte u (3 * g + 1) = w.extractLsb' 8 8 ∧
    byte u (3 * g + 2) = w.extractLsb' 0 8 := by
  refine ⟨bits.extractLsb' (108 - 24 * g) 24, ?_, ?_, ?_, ?_, ?_, ?_, ?_⟩
  iterate 4 exact h.symbol_of_window (by omega) (by decide) (by omega)
  iterate 3 exact h.byte_of_window (by omega) (by decide) (by omega)

/-- Byte 15 is the last two symbols without the last four bits. -/
theorem SharedBits.byte_last (h : SharedBits bits sym u) : ∃ w : BitVec 12,
    sym[20] = w.extractLsb' 6 6 ∧ sym[21] = w.extractLsb' 0 6 ∧ byte u 15 = w.extractLsb' 4 8 :=
  ⟨bits.extractLsb' 0 12, h.symbol_of_window (by decide) (by decide) (by decide),
    h.symbol_of_window (by decide) (by decide) (by decide), h.byte_of_window (by decide) (by decide) (by decide)⟩

end

/-- Settles O10: the symbols of each three bytes, and the rest of byte 15 with the four zeros. -/
theorem packByBytes : Obligations.PackByBytes := by
  unfold Obligations.PackByBytes
  refine fun u => ⟨fun g hg => ?_, ?_, ?_⟩
  · obtain ⟨w, h0, h1, h2, h3, hbyte0, hbyte1, hbyte2⟩ := (sharedBits_pack u).group hg
    rw [h0, h1, h2, h3, hbyte0, hbyte1, hbyte2]
    exact symbols_of_bytes w
  · rw [pack_getElem_of_lt u (by decide), BitVec.setWidth_ushiftRight_eq_extractLsb, byte,
      extractLsb'_extractLsb'_of_add_le _ (by decide)]
  · rw [pack_last, ← extractLsb'_append_zeros_eq_mask _ (by decide), byte,
      extractLsb'_extractLsb'_of_add_le _ (by decide)]

/-- `UNPACK` as arithmetic: the 132 bits are the weighted sum of the symbols, and the last four are dropped (R85). -/
theorem unpack_toNat (sym : SymVec) : (unpack sym).toNat =
    (((List.finRange 22).map fun i => sym[i.val].toNat * 2 ^ (126 - 6 * i.val)).sum) / 2 ^ 4 := by
  obtain ⟨hfold, -⟩ := concatBE_toNat_foldl 132 sym.toList (by simp)
  have hlt : (concatBE 132 sym.toList).toNat < 2 ^ 132 := (concatBE 132 sym.toList).isLt
  have hweight : ∀ i : Fin 22, 6 * (22 - 1 - i.val) = 126 - 6 * i.val := fun i => by omega
  have hsum := hfold.trans (foldl_eq_weighted_sum sym)
  simp only [hweight] at hsum
  rw [unpack, BitVec.extractLsb'_toNat, Nat.shiftRight_eq_div_pow, ← hsum, Nat.mod_eq_of_lt (by omega)]

/-- Settles O11: the bytes of each four symbols, byte 15 and its value as arithmetic. -/
theorem unpackByBytes : Obligations.UnpackByBytes := by
  unfold Obligations.UnpackByBytes
  refine fun sym => ⟨fun g hg => ?_, ?_, unpack_toNat sym⟩
  · obtain ⟨w, h0, h1, h2, h3, hbyte0, hbyte1, hbyte2⟩ := (sharedBits_unpack sym).group hg
    rw [h0, h1, h2, h3, hbyte0, hbyte1, hbyte2]
    exact bytes_of_symbols w
  · obtain ⟨w, h20, h21, hbyte⟩ := (sharedBits_unpack sym).byte_last
    rw [h20, h21, hbyte]
    refine BitVec.eq_of_getLsbD_eq fun k hk => ?_
    interval_cases k <;> simp

/-! ### The last character -/

/-- The last symbol of `PACK`, by the value's last two bits (R83). -/
theorem pack_last_of_low {u : UUID} {low : BitVec 2} (h : u.extractLsb' 0 2 = low) : (pack u)[21] = low ++ 0#4 := by
  rw [pack_last, h]

/-- The character of a symbol whose lower four bits are zero (R83). -/
theorem s2c_append_zeros_mem : ∀ low : BitVec 2, s2c (low ++ 0#4) ∈ [0x41#8, 0x51#8, 0x67#8, 0x77#8] := by
  decide

/-- The last character of every slug made of a value (R83). -/
theorem slugOf_last_mem (u : UUID) : (slugOf u)[21] ∈ [0x41#8, 0x51#8, 0x67#8, 0x77#8] := by
  rw [slugOf_getElem, pack_last]
  exact s2c_append_zeros_mem _

/-- Settles O12: the last symbol is the value's last two bits and four zeros. -/
theorem encoderTrailingBitsAreZero : Obligations.EncoderTrailingBitsAreZero := by
  unfold Obligations.EncoderTrailingBitsAreZero
  refine fun u => ⟨canonical_pack u, fun h => ?_, fun h => ?_, fun h => ?_, fun h => ?_, fun len hi s hready => ?_⟩
  iterate 4
    rw [pack_last_of_low h]
    decide
  exact ⟨_, exec_encode_of_ready hready len hi u, by simpa using slugOf_last_mem u⟩

/-! ### Valid slugs and their symbols -/

/-- A slug made of a value is syntactically valid (R90). -/
theorem validSlug_slugOf (u : UUID) : validSlug (slugOf u) := fun i =>
  (mem_alpha_iff _).mpr ⟨(pack u)[i.val], (slugOf_getElem u i.val i.isLt).symm⟩

/-- A string has symbols exactly where it is a valid slug (R16, R91). -/
theorem validSlug_iff (chr : Slug) : validSlug chr ↔ ∃ sym, symbolsOf chr = some sym := by
  refine ⟨symbolsOf_of_validSlug, ?_⟩
  rintro ⟨sym, hsym⟩ i
  exact (mem_alpha_iff _).mpr ⟨sym[i.val], ((symbolsOf_eq_some_iff chr sym).mp hsym i.val i.isLt).symm⟩

/-- The slug of a value is the string of its symbols, and no other (R73, R90). -/
theorem slugOf_eq_iff (u : UUID) (chr : Slug) : slugOf u = chr ↔ symbolsOf chr = some (pack u) := by
  constructor
  · rintro rfl
    exact symbolsOf_slugOf u
  · intro h
    refine Vector.ext fun i hi => ?_
    rw [slugOf_getElem, (symbolsOf_eq_some_iff chr (pack u)).mp h i hi]

/-- The slug of the value of a string is the string exactly where its symbols are canonical (R88). -/
theorem slugOf_unpack_eq_iff {chr : Slug} {sym : SymVec} (h : symbolsOf chr = some sym) :
    slugOf (unpack sym) = chr ↔ canonical sym := by
  rw [slugOf_eq_iff, h, Option.some_inj, eq_comm, pack_unpack_eq_iff]

/-- Four trailing zeros are a multiple of 16. -/
theorem extractLsb'_low_eq_zero_iff (v : Symbol) : v.extractLsb' 0 4 = 0#4 ↔ v.toNat % 16 = 0 := by
  rw [← BitVec.toNat_inj]
  simp

/-! ### ENCODE and DECODE, from a state that accepts a command -/

section
variable {s : State}

/-- After the host has taken a response that does not halt, the core accepts the next command (R33, R38). -/
theorem State.ready_take_respond (hready : s.ready = true) {r : Result} (hr : r.halts = false) :
    (s.respond r).take.ready = true := by
  obtain ⟨hhalt, -, -⟩ := s.ready_iff.mp hready
  simp [State.ready_iff, hhalt, hr]

/-- `DECODE` of a string with symbols answers their value (R91). -/
theorem exec_decode_of_symbols (hready : s.ready = true) {chr : Slug} {sym : SymVec} (h : symbolsOf chr = some sym) :
    exec (.decode 22#8 chr) s = .next (s.respond (.uuid (unpack sym))) := by
  rw [exec_decode_of_ready hready, State.decodeString_of_valid s h]

/-- `DECODE` of a slug response made of a value, after the host has taken it, answers the value (R87). -/
theorem exec_decode_of_slug_taken (hready : s.ready = true) (u : UUID) :
    exec (.decode 22#8 (s.respond (.slug (slugOf u))).slugOut) (s.respond (.slug (slugOf u))).take =
      .next ((s.respond (.slug (slugOf u))).take.respond (.uuid u)) := by
  rw [State.slugOut_respond, exec_decode_of_symbols (State.ready_take_respond hready rfl) (symbolsOf_slugOf u),
    unpack_pack]

/-- `DECODE` ends with status `OK` exactly on the valid slugs (R92). -/
theorem State.decodeString_rspStatus_eq_zero_iff (len : BitVec 8) (chr : Slug) :
    (s.decodeString len chr).rspStatus = 0#2 ↔ len = 22#8 ∧ validSlug chr := by
  rw [validSlug_iff]
  by_cases hlen : len = 22#8
  · subst hlen
    cases hsym : symbolsOf chr with
    | none => simp [State.decodeString_of_invalid s hsym, Exc.code]
    | some sym => simp [State.decodeString_of_valid s hsym, Result.status]
  · simp [State.decodeString_of_len_ne s chr hlen, hlen, Exc.code]

end

/-- Settles O13: the slug has the symbols of the value, and `UNPACK` undoes `PACK`. -/
theorem decodeOfEncodeIsTheValue : Obligations.DecodeOfEncodeIsTheValue := by
  unfold Obligations.DecodeOfEncodeIsTheValue
  refine ⟨unpack_pack, fun len hi u s hready => ?_⟩
  exact ⟨_, _, exec_encode_of_ready hready len hi u, rfl, exec_decode_of_slug_taken hready u, rfl,
    State.uuidOut_respond _ u⟩

/-- Settles O14: `PACK` undoes `UNPACK` where the last symbol's lower four bits are zero, and the slug shows it. -/
theorem encodeOfDecodeIsTheCanonicalSlug : Obligations.EncodeOfDecodeIsTheCanonicalSlug := by
  unfold Obligations.EncodeOfDecodeIsTheCanonicalSlug
  refine ⟨fun sym => ⟨pack_unpack_eq_iff sym, fun i hi => pack_unpack_getElem sym hi, pack_unpack_last sym⟩, ?_⟩
  intro len hi chr s hready hvalid
  obtain ⟨sym, hsym⟩ := symbolsOf_of_validSlug hvalid
  have hlast : chr[21] = s2c sym[21] := (symbolsOf_eq_some_iff chr sym).mp hsym 21 (by decide)
  have hready' : (s.respond (.uuid (unpack sym))).take.ready = true := State.ready_take_respond hready rfl
  refine ⟨_, _, sym[21], exec_decode_of_symbols hready hsym, rfl, exec_encode_of_ready hready' len hi _, rfl, ?_, ?_⟩
  · rw [hlast, c2s_s2c]
  · rw [State.slugOut_respond, State.uuidOut_respond, slugOf_unpack_eq_iff hsym, canonical, extractLsb'_low_eq_zero_iff]

/-- Settles O20, by the response that each command ends with. -/
theorem encodeTotalDecodeOkOnValidSlugs : Obligations.EncodeTotalDecodeOkOnValidSlugs := by
  unfold Obligations.EncodeTotalDecodeOkOnValidSlugs
  refine ⟨fun len hi u s hready => ⟨_, exec_encode_of_ready hready len hi u, rfl, rfl⟩, fun len chr s hready => ?_⟩
  refine ⟨_, exec_decode_of_ready hready len chr, ?_, State.decodeString_rspStatus_eq_zero_iff len chr⟩
  obtain ⟨r, -, hr⟩ := s.decodeString_cases len chr
  rw [hr, State.respond_rspValid]

/-- Settles O34: the command does nothing, or writes a response that does not halt. -/
theorem codecCommandsFrame : Obligations.CodecCommandsFrame := by
  unfold Obligations.CodecCommandsFrame
  intro i s t hop hexec
  cases hready : s.ready with
  | false =>
    obtain rfl := Host.Outcome.next.inj (hexec.symm.trans (exec_of_not_ready hready i))
    exact ⟨rfl, rfl, rfl, rfl, fun _ => rfl⟩
  | true =>
    obtain ⟨-, -, hflight⟩ := s.ready_iff.mp hready
    obtain ⟨r, hr, hrespond⟩ := exec_codec_of_ready hready ((isGenerator_eq_false_iff i).mpr hop)
    obtain rfl := Host.Outcome.next.inj (hexec.symm.trans hrespond)
    exact ⟨by simp [hr], by simp [hflight], rfl, rfl, by simp⟩

/-! ### Where the operands stand in the word, and the characters on the response bus -/

/-- Character lane `i` of a word is `CW[185-8i : 178-8i]` (R51). -/
theorem lane_data (cw : CommandWord) {i : Nat} (hi : i < 22) :
    lane (CommandWord.data cw) i = cw.extractLsb' (178 - 8 * i) 8 := by
  rw [lane, CommandWord.data, extractLsb'_extractLsb'_of_add_le _ (by omega)]
  congr 1
  omega

/-- A word with `DECODE`'s opcode is the `DECODE` of its length and its lanes (R52, R55). -/
theorem decodeWord_of_op_decode {cw : CommandWord} (h : CommandWord.op cw = 1#2) :
    decodeWord cw = .decode (CommandWord.len cw) (lanes (CommandWord.data cw)) := by
  have hcw := decodeWord_decode (CommandWord.data cw) (CommandWord.len cw)
  rwa [← h, commandWord_fields] at hcw

/-- Character `i` of a slug response is `rsp_data[175-8i : 168-8i]` (R59). -/
theorem State.slugOut_getElem (s : State) {i : Nat} (hi : i < 22) :
    (s.slugOut)[i] = s.rspData.extractLsb' (168 - 8 * i) 8 := by
  simp [State.slugOut, lanes, lane]

/-- Settles O16: the response is the slug of the operand, character by character; the three listed slugs by evaluating
the codec. -/
theorem encodeAnswersTheSlug : Obligations.EncodeAnswersTheSlug := by
  unfold Obligations.EncodeAnswersTheSlug
  refine ⟨fun len hi u s hready => ?_, fun len hi u => ⟨op_commandWord _ _ _, ?_⟩, by decide, by decide, by decide⟩
  · have hslug : (s.respond (.slug (slugOf u))).slugOut = slugOf u := State.slugOut_respond s _
    refine ⟨_, exec_encode_of_ready hready len hi u, rfl, rfl, by simp [Result.halts], fun i hi => ?_, fun i hi => ?_,
      ?_, ?_, ?_⟩
    · rw [hslug, slugOf_getElem]
    · rw [← State.slugOut_getElem _ hi, hslug, slugOf_getElem]
    · rw [State.slugOut, ofLanes_lanes]
    · rw [hslug]
      exact validSlug_slugOf u
    · rw [hslug]
      exact slugOf_last_mem u
  · rw [encodeWord, data_commandWord, Instr.dataField, BitVec.extractLsb'_append_eq_right]

/-- Settles O17: the string's symbols are those given, and a word is put together of the fields that are cut out of it. -/
theorem decodeAnswersTheValue : Obligations.DecodeAnswersTheValue := by
  unfold Obligations.DecodeAnswersTheValue
  refine ⟨fun chr sym s hready hsym => ?_, fun len chr => ⟨op_commandWord _ _ _, len_commandWord _ _ _, fun i hi => ?_⟩,
    fun cw hop => ⟨_, decodeWord_of_op_decode hop, fun i hi => ?_⟩⟩
  · have hsymbols : symbolsOf chr = some sym := (symbolsOf_eq_some_iff chr sym).mpr fun i hi =>
      ((c2s_eq_some_iff _ _).mp (hsym ⟨i, hi⟩)).symm
    exact ⟨_, exec_decode_of_symbols hready hsymbols, rfl, rfl, by simp [Result.halts],
      Result.data_uuid_low _ (unpack sym)⟩
  · rw [← lane_data _ hi, encodeWord, data_commandWord, Instr.dataField, lane_ofLanes chr i hi]
  · rw [← lane_data cw hi]
    simp [lanes]

end Sys2Proof.Machine

/-! ## The generator (spec/42_generator.md) -/

namespace Sys2Proof.Machine

/-! ### `STAMP` and `NICE` as windows and as masks -/

/-- The version nibble is `0100` and the variant bits are `10`: the fields of a version-4 value (R101). -/
def IsVersion4 (u : UUID) : Prop := u.extractLsb' 76 4 = 0b0100#4 ∧ u.extractLsb' 62 2 = 0b10#2

/-- A value is its two fields and the three windows around them. -/
theorem uuid_eq_append (u : UUID) :
    u.extractLsb' 80 48 ++ u.extractLsb' 76 4 ++ u.extractLsb' 64 12 ++ u.extractLsb' 62 2 ++ u.extractLsb' 0 62 =
      u := by
  rw [BitVec.extractLsb'_append_extractLsb'_eq_extractLsb' (start₂ := 80) (len₁ := 4) rfl,
    BitVec.extractLsb'_append_extractLsb'_eq_extractLsb' (start₂ := 76) (len₁ := 12) rfl,
    BitVec.extractLsb'_append_extractLsb'_eq_extractLsb' (start₂ := 64) (len₁ := 2) rfl]
  exact BitVec.extractLsb'_append_extractLsb'

/-- `STAMP` sets the fields (R101). -/
theorem isVersion4_stamp (r : UUID) : IsVersion4 (stamp r) := by
  constructor
  · rw [stamp, BitVec.extractLsb'_append_eq_of_le (by decide), BitVec.extractLsb'_append_eq_of_le (by decide),
      BitVec.extractLsb'_append_eq_of_le (by decide), BitVec.extractLsb'_append_eq_right]
  · rw [stamp, BitVec.extractLsb'_append_eq_of_le (by decide), BitVec.extractLsb'_append_eq_right]

/-- A value that already has the fields is unchanged (R101). -/
theorem stamp_eq_self {u : UUID} (h : IsVersion4 u) : stamp u = u := by
  obtain ⟨hversion, hvariant⟩ := h
  rw [stamp, ← hversion, ← hvariant, uuid_eq_append]

/-- Outside its two fields `STAMP` copies (R101). -/
theorem stamp_getLsbD_of_free (r : UUID) {k : Nat} (h : k < 62 ∨ 64 ≤ k ∧ k < 76 ∨ 80 ≤ k) :
    (stamp r).getLsbD k = r.getLsbD k := by
  rw [stamp_getLsbD]
  rcases h with hlow | ⟨hmid, hmid'⟩ | hhigh
  · rw [if_pos hlow]
  · rw [if_neg (by omega), if_neg (by omega), if_pos hmid']
  · rw [if_neg (by omega), if_neg (by omega), if_neg (by omega), if_neg (by omega)]

/-- A window that meets neither field is copied (R101). -/
theorem extractLsb'_stamp_of_free (r : UUID) {start len : Nat}
    (h : start + len ≤ 62 ∨ 64 ≤ start ∧ start + len ≤ 76 ∨ 80 ≤ start) :
    (stamp r).extractLsb' start len = r.extractLsb' start len := by
  refine BitVec.eq_of_getLsbD_eq fun k hk => ?_
  rw [BitVec.getLsbD_extractLsb', BitVec.getLsbD_extractLsb', stamp_getLsbD_of_free r (by omega)]

/-- A window below the top bit is copied by `NICE` (R103). -/
theorem extractLsb'_nice_of_le (u : UUID) {start len : Nat} (h : start + len ≤ 127) :
    (nice u).extractLsb' start len = u.extractLsb' start len := by
  refine BitVec.eq_of_getLsbD_eq fun k hk => ?_
  simp [nice_getLsbD, show start + k < 127 by omega]

/-- `NICE` leaves the fields alone (R103, R104). -/
theorem IsVersion4.nice {u : UUID} (h : IsVersion4 u) : IsVersion4 (nice u) := by
  rwa [IsVersion4, extractLsb'_nice_of_le u (by decide), extractLsb'_nice_of_le u (by decide)]

/-- `NICE` by document bits (R103). -/
theorem ubit_nice (u : UUID) {k : Nat} (hk : k < 128) : ubit (nice u) k = (decide (0 < k) && ubit u k) := by
  rw [ubit_of_lt _ hk, ubit_of_lt _ hk, nice_getLsbD]
  congr 2
  exact propext (by omega)

/-- A value with the bit already 0 is unchanged (R103). -/
theorem nice_eq_self {u : UUID} (h : ubit u 0 = false) : nice u = u := by
  refine eq_of_ubit_eq fun k hk => ?_
  rw [ubit_nice u hk]
  rcases Nat.eq_zero_or_pos k with rfl | hpos
  · simp [h]
  · simp [hpos]

/-- The bits that `STAMP` keeps (R102). -/
abbrev stampAndMask : UUID := 0xffffffffffff0fff3fffffffffffffff

/-- The bits that `STAMP` sets (R102). -/
abbrev stampOrMask : UUID := 0x00000000000040008000000000000000

/-- The bits that `NICE` keeps (R103). -/
abbrev niceMask : UUID := 0x7fffffffffffffffffffffffffffffff

/-- An and-mask and an or-mask write two of five windows and keep the others. -/
theorem append_and_or_mask {n₁ n₂ n₃ n₄ n₅ : Nat} (a : BitVec n₁) (b v : BitVec n₂) (c : BitVec n₃)
    (d w : BitVec n₄) (e : BitVec n₅) :
    ((a ++ b ++ c ++ d ++ e) &&&
      (BitVec.allOnes n₁ ++ 0#n₂ ++ BitVec.allOnes n₃ ++ 0#n₄ ++ BitVec.allOnes n₅)) |||
      (0#n₁ ++ v ++ 0#n₃ ++ w ++ 0#n₅) = a ++ v ++ c ++ w ++ e := by
  simp only [BitVec.and_append, BitVec.or_append, BitVec.and_allOnes, BitVec.and_zero, BitVec.or_zero, BitVec.zero_or]

/-- `STAMP` as masks (R102). -/
theorem stamp_eq_mask (r : UUID) :
    stamp r = (r &&& stampAndMask) ||| stampOrMask := by
  have hand : stampAndMask = BitVec.allOnes 48 ++ 0#4 ++ BitVec.allOnes 12 ++ 0#2 ++ BitVec.allOnes 62 := by decide
  have hor : stampOrMask = 0#48 ++ 0b0100#4 ++ 0#12 ++ 0b10#2 ++ 0#62 := by decide
  have hmask := append_and_or_mask (r.extractLsb' 80 48) (r.extractLsb' 76 4) 0b0100#4 (r.extractLsb' 64 12)
    (r.extractLsb' 62 2) 0b10#2 (r.extractLsb' 0 62)
  rw [uuid_eq_append] at hmask
  rw [hand, hor, hmask, stamp]

/-- `NICE` as a mask (R103). -/
theorem nice_eq_mask (u : UUID) : nice u = u &&& niceMask := by
  have hand : niceMask = 0#1 ++ BitVec.allOnes 127 := by decide
  have hu : u.extractLsb' 127 1 ++ u.extractLsb' 0 127 = u := BitVec.extractLsb'_append_extractLsb'
  have hmask : (u.extractLsb' 127 1 ++ u.extractLsb' 0 127) &&& (0#1 ++ BitVec.allOnes 127) =
      0#1 ++ u.extractLsb' 0 127 := by
    rw [BitVec.and_append, BitVec.and_zero, BitVec.and_allOnes]
  rw [hu] at hmask
  rw [hand, hmask, nice]

theorem byte_and (u v : UUID) (j : Nat) : byte (u &&& v) j = byte u j &&& byte v j := BitVec.extractLsb'_and

theorem byte_or (u v : UUID) (j : Nat) : byte (u ||| v) j = byte u j ||| byte v j := BitVec.extractLsb'_or

/-- `STAMP` by bytes, through the bytes of its masks (R102). -/
theorem byte_stamp (r : UUID) (j : Nat) :
    byte (stamp r) j = (byte r j &&& byte stampAndMask j) ||| byte stampOrMask j := by
  rw [stamp_eq_mask, byte_or, byte_and]

/-- The masks of `STAMP` leave 14 bytes alone (R102). -/
theorem byte_masks_of_ne : ∀ j : Nat, j < 16 → j ≠ 6 → j ≠ 8 →
    byte stampAndMask j = BitVec.allOnes 8 ∧ byte stampOrMask j = 0#8 := by
  decide

/-- Settles O21: the two fields are windows of the result, every other bit is copied, and the listed values by
evaluating `STAMP`. -/
theorem stampSetsVersionAndVariant : Obligations.StampSetsVersionAndVariant := by
  unfold Obligations.StampSetsVersionAndVariant
  refine ⟨fun r => ?_, by decide, by decide, by decide⟩
  obtain ⟨-, hvariant⟩ := isVersion4_stamp r
  refine ⟨?_, ?_, ?_, ?_, ?_, ?_, ?_, fun k hk hfree => ?_, fun hver hvar => stamp_eq_self ⟨hver, hvar⟩⟩
  iterate 6
    rw [ubit_of_lt _ (by decide), stamp_getLsbD]
    rfl
  · rw [byte, extractLsb'_extractLsb'_of_add_le _ (by decide), hvariant]
  · simp only [List.mem_cons, List.not_mem_nil, or_false, not_or] at hfree
    rw [ubit_of_lt _ hk, ubit_of_lt _ hk, stamp_getLsbD_of_free r (by omega)]

/-- Settles O22: the masks byte by byte, and a stamped value has the fields. -/
theorem stampIsAMask : Obligations.StampIsAMask := by
  unfold Obligations.StampIsAMask
  refine fun r => ⟨stamp_eq_mask r, byte_stamp r 6, byte_stamp r 8, fun j hj h6 h8 => ?_,
    stamp_eq_self (isVersion4_stamp r)⟩
  obtain ⟨hand, hor⟩ := byte_masks_of_ne j hj h6 h8
  rw [byte_stamp, hand, hor, BitVec.and_allOnes, BitVec.or_zero]

/-- Settles O23: one document bit is cleared, and a value in which it is 0 stays as it is. -/
theorem niceClearsTheTopBit : Obligations.NiceClearsTheTopBit := by
  unfold Obligations.NiceClearsTheTopBit
  refine ⟨fun u => ?_, by decide⟩
  have hclear : ubit (nice u) 0 = false := ubit_nice u (by decide)
  refine ⟨hclear, fun k hpos hk => ?_, nice_eq_mask u, ?_, nice_eq_self, nice_eq_self hclear⟩
  · simp [ubit_nice u hk, hpos]
  · rw [nice_eq_mask, byte_and]
    rfl

/-- Settles O24: the mask of `NICE` keeps the bits that `STAMP` sets. -/
theorem stampAndNiceCommute : Obligations.StampAndNiceCommute := by
  unfold Obligations.StampAndNiceCommute
  intro r
  have hkeep : stampOrMask &&& niceMask = stampOrMask := by decide
  calc nice (stamp r)
      = ((r &&& stampAndMask) ||| stampOrMask) &&& niceMask := by rw [nice_eq_mask, stamp_eq_mask]
    _ = (r &&& stampAndMask &&& niceMask) ||| stampOrMask := by rw [BitVec.and_or_distrib_right, hkeep]
    _ = (r &&& niceMask &&& stampAndMask) ||| stampOrMask := by
      rw [BitVec.and_assoc, BitVec.and_comm stampAndMask, ← BitVec.and_assoc]
    _ = stamp (nice r) := by rw [stamp_eq_mask, nice_eq_mask]

/-! ### The symbols and characters of a generated slug -/

/-- The characters `QRST` (R107, position 8). -/
abbrev versionCodes : List Code := [0x51, 0x52, 0x53, 0x54]

/-- The characters `CGKOSWaeimquy26-` (R107, position 10). -/
abbrev variantCodes : List Code :=
  [0x43, 0x47, 0x4B, 0x4F, 0x53, 0x57, 0x61, 0x65, 0x69, 0x6D, 0x71, 0x75, 0x79, 0x32, 0x36, 0x2D]

/-- The characters of the symbols `0b0100xx` (R107). -/
theorem s2c_mem_versionCodes : ∀ v : Symbol, v.extractLsb' 2 4 = 0b0100#4 → s2c v ∈ versionCodes := by
  decide

/-- The characters of the symbols `0bxxxx10` (R107). -/
theorem s2c_mem_variantCodes : ∀ v : Symbol, v.extractLsb' 0 2 = 0b10#2 → s2c v ∈ variantCodes := by
  decide

section
variable {u : UUID}

/-- The version nibble is the high four bits of symbol 8 (R107). -/
theorem IsVersion4.pack_version (h : IsVersion4 u) : (pack u)[8].extractLsb' 2 4 = 0b0100#4 := by
  obtain ⟨hversion, -⟩ := h
  rw [pack_getElem_of_lt u (by decide), extractLsb'_extractLsb'_of_add_le _ (by decide), hversion]

/-- The variant bits are the low two bits of symbol 10 (R107). -/
theorem IsVersion4.pack_variant (h : IsVersion4 u) : (pack u)[10].extractLsb' 0 2 = 0b10#2 := by
  obtain ⟨-, hvariant⟩ := h
  rw [pack_getElem_of_lt u (by decide), extractLsb'_extractLsb'_of_add_le _ (by decide), hvariant]

theorem IsVersion4.slugOf_8_mem (h : IsVersion4 u) : (slugOf u)[8] ∈ versionCodes := by
  rw [slugOf_getElem]
  exact s2c_mem_versionCodes _ h.pack_version

theorem IsVersion4.slugOf_10_mem (h : IsVersion4 u) : (slugOf u)[10] ∈ variantCodes := by
  rw [slugOf_getElem]
  exact s2c_mem_variantCodes _ h.pack_variant

end

/-- The first symbol of a value whose top bit is cleared is in the first half of the alphabet (R106, R107). -/
theorem pack_nice_first_le (u : UUID) : (pack (nice u))[0].toNat ≤ 31 := by
  have hmsb : (pack (nice u))[0].msb = false := by
    rw [BitVec.msb, pack_getMsbD _ 0 0 (by decide) (by decide), ubit_nice u (by decide)]
    rfl
  have hlt := BitVec.msb_eq_false_iff_two_mul_lt.mp hmsb
  omega

/-- `STAMP` copies the symbols that meet neither field (R107). -/
theorem pack_stamp_of_free (r : UUID) {p : Nat} (hp : p < 21) (h8 : p ≠ 8) (h10 : p ≠ 10) :
    (pack (stamp r))[p] = (pack r)[p] := by
  rw [pack_getElem_of_lt _ hp, pack_getElem_of_lt _ hp, extractLsb'_stamp_of_free r (by omega)]

/-- `NICE` copies the symbols after the first (R106). -/
theorem pack_nice_of_pos (u : UUID) {p : Nat} (hp : p < 21) (hpos : 0 < p) : (pack (nice u))[p] = (pack u)[p] := by
  rw [pack_getElem_of_lt _ hp, pack_getElem_of_lt _ hp, extractLsb'_nice_of_le u (by omega)]

/-- A draw whose symbols 0 to 20 are all `v`: what reaches `v` at a position that is copied (R107). -/
def drawOfSymbol (v : Symbol) : UUID := unpack (Vector.replicate 22 v)

theorem pack_drawOfSymbol (v : Symbol) {p : Nat} (hp : p < 21) : (pack (drawOfSymbol v))[p] = v := by
  rw [drawOfSymbol, pack_unpack_getElem _ hp, Vector.getElem_replicate]

/-! ### RANDV4 and RANDNICE, from a state that accepts a command -/

section
variable {s : State}

/-- An accepted generator command asks for its draw (R37). -/
theorem exec_generator_of_ready {i : Instr} (hready : s.ready = true) (hi : isGenerator i = true) :
    ∃ g : Generator, exec i s = .next (s.generate g) := by
  cases i with
  | encode len top u => simp [isGenerator, Instr.op] at hi
  | decode len chr => simp [isGenerator, Instr.op] at hi
  | randv4 len data => exact ⟨.randv4, exec_randv4_of_ready hready len data⟩
  | randnice len data => exact ⟨.randnice, exec_randnice_of_ready hready len data⟩

/-- `RANDV4` with its draw answers the slug of the stamped draw (R105). -/
theorem exec_randv4_of_ok (hready : s.ready = true) {r : UUID} (hdraw : s.draw = some (.ok r)) (len : BitVec 8)
    (data : Bus) : exec (.randv4 len data) s = .next (s.respond (.slug (slugOf (stamp r)))) := by
  rw [exec_randv4_of_ready hready, State.generate_of_ok hdraw, Generator.shape]

/-- `RANDNICE` with its draw answers the slug of the stamped draw with its top bit cleared (R106). -/
theorem exec_randnice_of_ok (hready : s.ready = true) {r : UUID} (hdraw : s.draw = some (.ok r)) (len : BitVec 8)
    (data : Bus) : exec (.randnice len data) s = .next (s.respond (.slug (slugOf (nice (stamp r))))) := by
  rw [exec_randnice_of_ready hready, State.generate_of_ok hdraw, Generator.shape]

end

/-- Settles O25: `RANDV4` and `ENCODE` of the stamped draw write one and the same response. -/
theorem randv4AnswersTheStampedSlug : Obligations.Randv4AnswersTheStampedSlug := by
  unfold Obligations.Randv4AnswersTheStampedSlug
  intro len data r s hready hdraw
  exact ⟨_, exec_randv4_of_ok hready hdraw len data, rfl, rfl, by simp [Result.halts], fun i hi => by simp,
    fun len' hi => exec_encode_of_ready hready len' hi _⟩

/-- Settles O26: `RANDNICE` and `ENCODE` write one and the same response; a draw with its top bit 0 is left alone by
`NICE`, which commutes with `STAMP`. -/
theorem randniceAnswersTheNiceSlug : Obligations.RandniceAnswersTheNiceSlug := by
  unfold Obligations.RandniceAnswersTheNiceSlug
  intro len data r s hready hdraw
  refine ⟨_, exec_randnice_of_ok hready hdraw len data, rfl, rfl, by simp [Result.halts], fun i hi => by simp,
    fun len' hi => exec_encode_of_ready hready len' hi _, fun htop => ?_⟩
  rw [exec_randv4_of_ok hready hdraw, stampAndNiceCommute, nice_eq_self htop]

/-- Settles O27: the sets follow from the two fields, the cleared top bit and the pad; the other symbols are copied from
the draw. -/
theorem generatedSlugsKeepTheirSets : Obligations.GeneratedSlugsKeepTheirSets := by
  unfold Obligations.GeneratedSlugsKeepTheirSets
  refine ⟨fun len data r s hready hdraw => ?_, fun len hi u s hready => ?_, fun r => ⟨pack_nice_first_le _, ?_⟩,
    fun v => ⟨drawOfSymbol v, ?_⟩, fun p hp hfree v => ⟨drawOfSymbol v, ?_⟩⟩
  · have hv4 := isVersion4_stamp r
    refine ⟨_, _, exec_randv4_of_ok hready hdraw len data, exec_randnice_of_ok hready hdraw len data, ?_⟩
    rw [State.slugOut_respond, State.slugOut_respond]
    exact ⟨⟨_, pack_nice_first_le _, slugOf_getElem _ _ _⟩,
      List.forall_mem_cons.mpr ⟨hv4.slugOf_8_mem, List.forall_mem_singleton.mpr hv4.nice.slugOf_8_mem⟩,
      List.forall_mem_cons.mpr ⟨hv4.slugOf_10_mem, List.forall_mem_singleton.mpr hv4.nice.slugOf_10_mem⟩,
      List.forall_mem_cons.mpr ⟨slugOf_last_mem _, List.forall_mem_singleton.mpr (slugOf_last_mem _)⟩⟩
  · exact ⟨_, exec_encode_of_ready hready len hi u, by simpa using slugOf_last_mem u⟩
  · have hfields {u : UUID} (h : IsVersion4 u) : (pack u)[8].extractLsb' 2 4 = 0b0100#4 ∧
        (pack u)[10].extractLsb' 0 2 = 0b10#2 ∧ (pack u)[21].extractLsb' 0 4 = 0#4 :=
      ⟨h.pack_version, h.pack_variant, canonical_pack u⟩
    have hv4 := isVersion4_stamp r
    exact List.forall_mem_cons.mpr ⟨hfields hv4, List.forall_mem_singleton.mpr (hfields hv4.nice)⟩
  · rw [pack_stamp_of_free _ (by decide) (by decide) (by decide), pack_drawOfSymbol v (by decide)]
  · simp only [List.mem_cons, List.not_mem_nil, or_false, not_or] at hfree
    obtain ⟨h0, h8, h10, h21⟩ := hfree
    have hp21 : p < 21 := by omega
    have hstamp : (pack (stamp (drawOfSymbol v)))[p] = v := by
      rw [pack_stamp_of_free _ hp21 h8 h10, pack_drawOfSymbol v hp21]
    exact ⟨hstamp, by rw [pack_nice_of_pos _ hp21 (Nat.pos_of_ne_zero h0), hstamp]⟩

/-- Settles O28: the response is the slug of the generated value, and `DECODE` of such a slug answers the value. -/
theorem decodeRecoversTheGeneratedValue : Obligations.DecodeRecoversTheGeneratedValue := by
  unfold Obligations.DecodeRecoversTheGeneratedValue
  intro len data r s hready hdraw
  exact ⟨⟨_, _, exec_randv4_of_ok hready hdraw len data, exec_decode_of_slug_taken hready _, rfl,
      State.uuidOut_respond _ _⟩,
    ⟨_, _, exec_randnice_of_ok hready hdraw len data, exec_decode_of_slug_taken hready _, rfl,
      State.uuidOut_respond _ _⟩⟩

/-- Settles O35: the command does nothing, or, by the answer of the source, waits, responds or halts the core. -/
theorem generatorCommandsFrame : Obligations.GeneratorCommandsFrame := by
  unfold Obligations.GeneratorCommandsFrame
  intro i s t hop hexec
  cases hready : s.ready with
  | false =>
    obtain rfl := Host.Outcome.next.inj (hexec.symm.trans (exec_of_not_ready hready i))
    simp
  | true =>
    obtain ⟨-, -, hflight⟩ := s.ready_iff.mp hready
    obtain ⟨g, hg⟩ := exec_generator_of_ready hready ((isGenerator_eq_true_iff i).mpr hop)
    obtain rfl := Host.Outcome.next.inj (hexec.symm.trans hg)
    rcases hdraw : s.draw with _ | r | _
    · simp [State.generate_of_no_answer hdraw]
    · simp [State.generate_of_ok hdraw, hflight, Result.halts]
    · simp [State.generate_of_fail hdraw, hflight]

end Sys2Proof.Machine

/-! ## The exceptions (spec/60_exceptions.md) -/

namespace Sys2Proof.Machine

/-! ### The two decode errors -/

/-- The saturated length of a string is 22 for strings of 22 characters only (R53). -/
theorem assembledLength_ne {n : Nat} (h : n ≠ 22) : BitVec.ofNat 8 (min n 255) ≠ 22#8 := by
  rw [Ne, ← BitVec.toNat_inj, BitVec.toNat_ofNat, BitVec.toNat_ofNat]
  omega

section
variable {s : State}

/-- `DECODE` of a wrong length raises `InvalidLength`, whatever the characters are (R121, R126). -/
theorem exec_decode_of_len_ne (hready : s.ready = true) {len : BitVec 8} (hlen : len ≠ 22#8) (chr : Slug) :
    exec (.decode len chr) s = .next (s.raise .invalidLength) := by
  rw [exec_decode_of_ready hready, State.decodeString_of_len_ne s chr hlen]

/-- `DECODE` of 22 characters, one of them outside the alphabet, raises `InvalidCharacter` (R122). -/
theorem exec_decode_of_bad_character (hready : s.ready = true) {chr : Slug}
    (hbad : ∃ i : Fin 22, c2s chr[i.val] = none) :
    exec (.decode 22#8 chr) s = .next (s.raise .invalidCharacter) := by
  rw [exec_decode_of_ready hready, State.decodeString_of_invalid s ((symbolsOf_eq_none_iff chr).mpr hbad)]

/-- Taking an exception that does not halt leaves `HALT` as it was (R22, R127). -/
theorem State.raise_halt_of_not_halts {e : Exc} (h : (Result.error e).halts = false) : (s.raise e).halt = s.halt := by
  rw [State.raise_halt, h, Bool.or_false]

end

/-- Settles O18: the exception raised does not depend on the characters, and a string of another length than 22 has
another length field. -/
theorem wrongLengthIsInvalidLength : Obligations.WrongLengthIsInvalidLength := by
  unfold Obligations.WrongLengthIsInvalidLength
  refine ⟨fun len chr s hready hlen => ⟨?_, fun chr' => ?_⟩, fun str s hready hstr => ?_⟩
  · exact ⟨_, exec_decode_of_len_ne hready hlen chr, rfl, rfl, State.raise_halt_of_not_halts rfl⟩
  · rw [exec_decode_of_len_ne hready hlen, exec_decode_of_len_ne hready hlen]
  · exact ⟨_, exec_decode_of_len_ne hready (assembledLength_ne hstr) _, rfl, rfl, State.raise_halt_of_not_halts rfl⟩

/-- Settles O19: one lane outside the alphabet raises the exception, which carries nothing of the string. -/
theorem badCharacterIsInvalidCharacter : Obligations.BadCharacterIsInvalidCharacter := by
  unfold Obligations.BadCharacterIsInvalidCharacter
  refine fun chr s hready hbad => ⟨?_, fun chr' hbad' => ?_⟩
  · exact ⟨_, exec_decode_of_bad_character hready hbad, rfl, rfl, State.raise_halt_of_not_halts rfl⟩
  · rw [exec_decode_of_bad_character hready hbad, exec_decode_of_bad_character hready hbad']

/-! ### The entropy failure -/

section
variable {s : State}

/-- A generator command whose draw fails raises `EntropyFailure` (R111, R123). -/
theorem exec_generator_of_fail {i : Instr} (hready : s.ready = true) (hi : isGenerator i = true)
    (hdraw : s.draw = some .fail) : exec i s = .next (s.raise .entropyFailure) := by
  obtain ⟨g, hg⟩ := exec_generator_of_ready hready hi
  rw [hg, State.generate_of_fail hdraw]

/-- Taking `EntropyFailure` halts the core (R127, R129). -/
theorem State.raise_entropyFailure_halt : (s.raise .entropyFailure).halt = true := Bool.or_true _

end

/-- Settles O29: the command raises `EntropyFailure`, at acceptance as after a wait. -/
theorem failedDrawHaltsTheCore : Obligations.FailedDrawHaltsTheCore := by
  unfold Obligations.FailedDrawHaltsTheCore
  refine ⟨fun len data s hready hdraw => ⟨?_, ?_⟩, fun g s hrst hvalid hflight hdraw => ?_⟩
  · exact ⟨_, exec_generator_of_fail hready rfl hdraw, rfl, rfl, State.raise_entropyFailure_halt, rfl⟩
  · exact ⟨_, exec_generator_of_fail hready rfl hdraw, rfl, rfl, State.raise_entropyFailure_halt, rfl⟩
  · obtain ⟨-, hfail⟩ := waitingGeneratorEndsWithItsAnswer g s hrst hvalid hflight
    obtain ⟨t, hstep, hrsp, hstatus, hnone, hhalt⟩ := hfail hdraw
    exact ⟨t, hstep, hstatus, hrsp, hhalt, hnone⟩

/-! ### Which command raises what -/

/-- A generator command that responds does so with `OK` or with `EntropyFailure` (R124). -/
theorem State.generate_rspStatus {s : State} {g : Generator} (hvalid : s.rspValid = false)
    (hresponds : (s.generate g).rspValid = true) :
    (s.generate g).rspStatus = 0#2 ∨ (s.generate g).rspStatus = 3#2 := by
  rcases hdraw : s.draw with _ | r | _
  · rw [State.generate_of_no_answer hdraw, State.suspend_rspValid, hvalid] at hresponds
    contradiction
  · exact .inl (by rw [State.generate_of_ok hdraw]; rfl)
  · exact .inr (by rw [State.generate_of_fail hdraw]; rfl)

/-- The response of an accepted `ENCODE` or `DECODE` is no entropy failure (R124). -/
theorem exec_codec_rspStatus_ne_three {i : Instr} {s t : State} (hready : s.ready = true) (hi : isGenerator i = false)
    (hexec : exec i s = .next t) : t.rspStatus ≠ 3#2 := by
  obtain ⟨r, hr, hrespond⟩ := exec_codec_of_ready hready hi
  obtain rfl := Host.Outcome.next.inj (hexec.symm.trans hrespond)
  simp [Result.status_eq_three_iff, hr]

/-- The response of an accepted generator command is `OK` or `EntropyFailure` (R124). -/
theorem exec_generator_rspStatus {i : Instr} {s t : State} (hready : s.ready = true) (hi : isGenerator i = true)
    (hexec : exec i s = .next t) (hresponds : t.rspValid = true) : t.rspStatus = 0#2 ∨ t.rspStatus = 3#2 := by
  obtain ⟨-, hvalid, -⟩ := s.ready_iff.mp hready
  obtain ⟨g, hg⟩ := exec_generator_of_ready hready hi
  obtain rfl := Host.Outcome.next.inj (hexec.symm.trans hg)
  exact State.generate_rspStatus hvalid hresponds

/-- The response of a generator command after its wait is `OK` or `EntropyFailure` (R124). -/
theorem step_inFlight_rspStatus {s t : State} (hrst : s.now.rst = false) (hvalid : s.rspValid = false)
    (hflight : s.inFlight.isSome = true) (hstep : step s = .next t) (hresponds : t.rspValid = true) :
    t.rspStatus = 0#2 ∨ t.rspStatus = 3#2 := by
  obtain ⟨g, hg⟩ := Option.isSome_iff_exists.mp hflight
  obtain ⟨hreset, -⟩ | ⟨-, -, t', hact, rfl⟩ := step_cases hstep
  · simp [hrst] at hreset
  · obtain rfl := Host.Outcome.next.inj (hact.symm.trans (act_of_inFlight hvalid hg))
    exact State.generate_rspStatus hvalid hresponds

/-- The reset state with a source that answers `fail` at its first step. -/
def failingSource : State := { State.reset with moves := [{ Inputs.quiet with entFail := true }] }

theorem failingSource_ready : failingSource.ready = true := rfl

theorem failingSource_draw : failingSource.draw = some .fail := rfl

/-- Settles O33, command by command; the exceptions are raised by `DECODE` of the empty string and of 22 times `+`, and
by the generators in the reset state with a source that fails. -/
theorem whichCommandRaisesWhat : Obligations.WhichCommandRaisesWhat := by
  unfold Obligations.WhichCommandRaisesWhat
  refine ⟨fun len hi u s t hready hexec => ?_, fun len chr s t hready => exec_codec_rspStatus_ne_three hready rfl,
    fun len data s t hready hexec => ?_, fun s t => step_inFlight_rspStatus, fun s hready => ⟨?_, ?_⟩, ?_⟩
  · obtain rfl := Host.Outcome.next.inj (hexec.symm.trans (exec_encode_of_ready hready len hi u))
    rfl
  · exact hexec.elim (exec_generator_rspStatus hready rfl) (exec_generator_rspStatus hready rfl)
  · exact ⟨0#8, Vector.replicate 22 0x2b#8, _, exec_decode_of_len_ne hready (by decide) _, rfl⟩
  · have hbad : ∃ i : Fin 22, c2s (Vector.replicate 22 0x2b#8)[i.val] = none := by decide
    exact ⟨22#8, Vector.replicate 22 0x2b#8, _, exec_decode_of_bad_character hready hbad, rfl⟩
  · exact ⟨failingSource, _, _, failingSource_ready, exec_generator_of_fail failingSource_ready rfl failingSource_draw,
      rfl, exec_generator_of_fail failingSource_ready rfl failingSource_draw, rfl⟩

/-! ### The fatal halt -/

/-- A halted core accepts no command at a step, and only a reset clears `HALT` (R129). -/
theorem step_of_halted {s t : State} (hhalt : s.halted) (hrst : s.now.rst = false) (hstep : step s = .next t) :
    s.accepted = none ∧ t.halted :=
  ⟨State.accepted_of_not_ready (s.not_ready_iff.mpr (.inl hhalt)), (step_halt_iff hstep).mpr ⟨hrst, .inl hhalt⟩⟩

/-- Settles O52, by induction over the run: each step finds a halted core, accepts nothing and leaves it halted. -/
theorem haltedCoreAcceptsNothingUntilReset : Obligations.HaltedCoreAcceptsNothingUntilReset := by
  unfold Obligations.HaltedCoreAcceptsNothingUntilReset
  intro k s t hhalt hrst hrun
  refine run_induction (I := fun _ => True)
    (motive := fun k s t => s.halted → t.halt = true ∧ State.acceptedIn k s = [])
    (keeps := fun _ _ _ _ => trivial) (zero := fun s _ hs => ⟨hs, rfl⟩) (succ := fun k s s' t _ hnow hstep ih hs => ?_)
    k s t trivial hrst hrun hhalt
  obtain ⟨hnone, hs'⟩ := step_of_halted hs hnow hstep
  obtain ⟨ht, hrest⟩ := ih hs'
  refine ⟨ht, ?_⟩
  rw [acceptedIn_succ_of_next hstep, hnone, hrest, Option.toList_none, List.append_nil]

end Sys2Proof.Machine

/-! ## Reset and hazards (spec/70_reset_and_hazards.md) -/

namespace Sys2Proof.Machine

/-! ### Late and stray answers -/

/-- Settles O47: reset goes on, and so does the core where the answer is no stray one. -/
theorem onlyStrayAnswersAreRefused : Obligations.OnlyStrayAnswersAreRefused := by
  unfold Obligations.OnlyStrayAnswersAreRefused
  intro s
  cases hrst : s.now.rst with
  | true => exact .inl ⟨_, step_of_rst hrst⟩
  | false =>
    cases hstray : s.strayAnswer with
    | false =>
      obtain ⟨t, hact⟩ := act_total s
      exact .inl ⟨_, step_of_act hrst hstray hact⟩
    | true =>
      obtain ⟨hanswer, howed, hreq⟩ := s.strayAnswer_iff.mp hstray
      obtain ⟨hflight, hgen⟩ := (State.entReq_eq_false_iff hrst).mp hreq
      exact .inr ⟨step_of_stray hrst hstray, rfl, hanswer, howed, hflight, hgen, hreq⟩

/-- The core writes neither the count of answers owed nor the outside agents' moves (R13, R20). -/
theorem act_frame {s t : State} (h : act s = .next t) : t.owed = s.owed ∧ t.moves = s.moves := by
  obtain ⟨-, -, ha⟩ | ⟨-, -, ha⟩ | ⟨-, -, r, ha⟩ | ⟨-, -, -, g, ha⟩ | ⟨-, -, -, ha⟩ := act_cases s <;>
    · obtain rfl := Host.Outcome.next.inj (h.symm.trans ha)
      exact ⟨rfl, rfl⟩

section
variable {s t : State} {g : Generator}

/-- To suspend the command that is in flight changes nothing (R35). -/
theorem State.suspend_eq_self (h : s.inFlight = some g) : s.suspend g = s := by
  rw [State.suspend, ← h]

/-- A command in flight without its answer waits, and nothing changes (R35, R147 (b)). -/
theorem act_of_inFlight_of_no_answer (hvalid : s.rspValid = false) (hflight : s.inFlight = some g)
    (hdraw : s.draw = none) : act s = .next s := by
  rw [act_of_inFlight hvalid hflight, State.generate_of_no_answer hdraw, State.suspend_eq_self hflight]

/-- With no command presented none is accepted. -/
theorem State.accepted_of_not_cmdValid (h : s.now.cmdValid = false) : s.accepted = none := by
  simp [State.accepted, h]

/-- The end of a step at which a late answer comes: one answer fewer is owed, and one move is used up (R141). -/
theorem step_of_late_answer {n : Nat} (hrst : s.now.rst = false) (howed : s.owed = n + 1)
    (hanswer : s.now.answer.isSome = true) (hact : act s = .next t) :
    step s = .next { t with owed := n, moves := s.moves.tail } := by
  obtain ⟨ht, hmoves⟩ := act_frame hact
  have hnow : t.now = s.now := by rw [State.now, hmoves, State.now]
  rw [step_of_act hrst (State.not_strayAnswer_of_owed (by omega)) hact, State.advance, hnow, hanswer, ht, howed, hmoves]
  rfl

/-- While an answer is owed, the core does the same whether an answer comes or not (R141). -/
theorem act_withoutAnswer (howed : s.owed ≠ 0) :
    ∃ t, act s = .next t ∧ act s.withoutAnswer = .next t.withoutAnswer := by
  have hdraw : s.draw = none := State.draw_of_owed howed
  have hdraw' : s.withoutAnswer.draw = none := State.draw_of_owed howed
  cases hvalid : s.rspValid with
  | true =>
    refine ⟨_, act_of_rspValid hvalid, ?_⟩
    rw [act_of_rspValid (s := s.withoutAnswer) hvalid, State.withoutAnswer_now]
    split <;> rfl
  | false =>
    cases hflight : s.inFlight with
    | some g =>
      exact ⟨s, act_of_inFlight_of_no_answer hvalid hflight hdraw,
        act_of_inFlight_of_no_answer (s := s.withoutAnswer) hvalid hflight hdraw'⟩
    | none =>
      cases hcmd : s.now.cmdValid with
      | false => exact ⟨s, by simp [act, hvalid, hflight, hcmd], by simp [act, hvalid, hflight, hcmd]⟩
      | true =>
        have hact : act s = exec (decodeWord s.now.cw) s := by simp [act, hvalid, hflight, hcmd]
        have hact' : act s.withoutAnswer = exec (decodeWord s.now.cw) s.withoutAnswer := by
          simp [act, hvalid, hflight, hcmd, Inputs.cw]
        rw [hact, hact']
        cases hready : s.ready with
        | false => exact ⟨s, exec_of_not_ready hready _, exec_of_not_ready (s := s.withoutAnswer) hready _⟩
        | true =>
          obtain ⟨r, -, hr⟩ | ⟨g, hg⟩ := exec_result (decodeWord s.now.cw) none
          · exact ⟨_, hr s hready hdraw, hr s.withoutAnswer hready hdraw'⟩
          · exact ⟨_, hg s hready hdraw, hg s.withoutAnswer hready hdraw'⟩

end

/-- Settles O41: while an answer is owed there is no draw, so each step is the core's act without one, and the answer
that comes only lowers the count. -/
theorem lateAnswerIsDiscarded : Obligations.LateAnswerIsDiscarded := by
  unfold Obligations.LateAnswerIsDiscarded
  refine ⟨fun s hrst hflight hanswer => ?_, fun s n hrst howed hanswer => ?_⟩
  · have hcount : s.applyReset.advance.owed = s.owed + 1 := by simp [hflight, hanswer]
    exact ⟨_, step_of_rst hrst, hcount, State.draw_of_owed (by omega)⟩
  have hdraw : s.draw = none := State.draw_of_owed (by omega)
  refine ⟨fun hready hcmd hop => ?_, fun g hvalid hflight => ?_, fun hvalid hflight hcmd => ?_, fun hvalid => ?_, ?_⟩
  · obtain ⟨hhalt, hvalid, -⟩ := s.ready_iff.mp hready
    obtain ⟨g, hact⟩ := act_of_acceptsGenerator (s.acceptsGenerator_iff.mpr ⟨hrst, hready, hcmd, hop⟩)
    rw [State.generate_of_no_answer hdraw] at hact
    exact ⟨_, step_of_late_answer hrst howed hanswer hact, rfl, hvalid, hhalt, rfl⟩
  · exact step_of_late_answer hrst howed hanswer (act_of_inFlight_of_no_answer hvalid hflight hdraw)
  · exact step_of_late_answer hrst howed hanswer
      (act_of_idle hrst hvalid hflight (State.accepted_of_not_cmdValid hcmd))
  · rw [step_of_late_answer hrst howed hanswer (act_of_rspValid hvalid)]
    cases htake : s.now.rspReady with
    | true => rfl
    | false => simp [hvalid]
  · obtain ⟨t, hact, hact'⟩ := act_withoutAnswer (s := s) (by omega)
    have hstray : s.withoutAnswer.strayAnswer = false := State.not_strayAnswer_of_owed (by simp [howed])
    refine ⟨_, step_of_act hrst hstray hact', ?_⟩
    rw [step_of_late_answer hrst howed hanswer hact, ← (act_frame hact).2]
    rfl

/-! ### Commands that complete on their own -/

section
variable {s : State} {cw : CommandWord}

/-- A command presented to a core that is ready is accepted (R33). -/
theorem State.accepted_presenting (hready : s.ready = true) : (s.presenting cw).accepted = some (decodeWord cw) :=
  (State.accepted_eq_some_iff _ _).mpr ⟨rfl, hready, rfl, by simp⟩

/-- A command presented to a core that is ready is executed (R37). -/
theorem act_presenting (hready : s.ready = true) :
    act (s.presenting cw) = exec (decodeWord cw) (s.presenting cw) :=
  act_of_accepted (State.accepted_presenting hready)

/-- An answer that does not come, or comes late, is no stray one (R141). -/
theorem State.not_strayAnswer_of_late (h : s.now.answer = none ∨ 0 < s.owed) : s.strayAnswer = false := by
  obtain hanswer | howed := h
  · simp [State.strayAnswer, hanswer]
  · exact State.not_strayAnswer_of_owed (by omega)

end

/-- Settles O55: the word is accepted; `ENCODE` and `DECODE` respond at once, and a generator command has its draw. -/
theorem commandsCompleteOnTheirOwn : Obligations.CommandsCompleteOnTheirOwn := by
  unfold Obligations.CommandsCompleteOnTheirOwn
  refine ⟨fun s cw hready hanswer hop => ?_, fun s cw hready hdraw hop => ?_⟩
  · have hcodec : isGenerator (decodeWord cw) = false := (isGenerator_eq_false_iff _).mpr (by rwa [decodeWord_op])
    obtain ⟨r, -, hexec⟩ := exec_codec_of_ready (s := s.presenting cw) hready hcodec
    have hstray : (s.presenting cw).strayAnswer = false := State.not_strayAnswer_of_late hanswer
    exact ⟨_, step_of_act rfl hstray ((act_presenting hready).trans hexec), rfl⟩
  · have hgen : isGenerator (decodeWord cw) = true := (isGenerator_eq_true_iff _).mpr (by rwa [decodeWord_op])
    obtain ⟨a, ha⟩ := Option.isSome_iff_exists.mp hdraw
    obtain ⟨g, hexec⟩ := exec_generator_of_ready (s := s.presenting cw) hready hgen
    rw [State.generate_of_answer (s := s.presenting cw) ha] at hexec
    have hreq : (s.presenting cw).outputs.entReq = true := by
      rw [State.entReq_of_accepted (State.accepted_presenting hready), hgen]
    have hstray := State.not_strayAnswer_of_entReq hreq
    exact ⟨_, step_of_act rfl hstray ((act_presenting hready).trans hexec), by simp⟩

/-! ### Runs in which the core makes no progress (R147 (b) to (d)) -/

/-- The core makes no progress while the outside agents go on as their coming moves say: no reset, no answer but late
ones, and what the core would need to go on never comes (R141, R147). -/
structure State.Stalled (s : State) : Prop where
  noReset : ∀ p ∈ s.moves, p.rst = false
  late : s.onlyLateAnswers
  /-- R147 (b), (c), (d). -/
  reason : (s.rspValid = false ∧ s.inFlight.isSome = true) ∨
    (s.rspValid = true ∧ ∀ p ∈ s.moves, p.rspReady = false) ∨
    (s.ready = true ∧ ∀ p ∈ s.moves, p.cmdValid = false)

section
variable {s : State}

/-- What is stalled stays so as the moves are used up. -/
theorem State.Stalled.advance (h : s.Stalled) : s.advance.Stalled where
  noReset p hp := h.noReset p (List.mem_of_mem_tail hp)
  late := (State.onlyLateAnswers_now h.late).2
  reason := h.reason.imp id (.imp (.imp id fun hall p hp => hall p (List.mem_of_mem_tail hp))
    (.imp id fun hall p hp => hall p (List.mem_of_mem_tail hp)))

/-- A stalled core does nothing at the step. -/
theorem State.Stalled.act (h : s.Stalled) : act s = .next s ∧ s.accepted = none ∧ s.taken = none := by
  obtain ⟨hdraw, -⟩ := State.draw_of_onlyLateAnswers h.late
  obtain ⟨hvalid, hflight⟩ | ⟨hvalid, hall⟩ | ⟨hready, hall⟩ := h.reason
  · obtain ⟨g, hg⟩ := Option.isSome_iff_exists.mp hflight
    exact ⟨act_of_inFlight_of_no_answer hvalid hg hdraw,
      State.accepted_of_not_ready (s.not_ready_iff.mpr (.inr (.inr hflight))), State.taken_of_not_rspValid hvalid⟩
  · have htake : s.now.rspReady = false := State.now_of_all hall rfl
    exact ⟨by simp [act_of_rspValid hvalid, htake], State.accepted_of_rspValid hvalid,
      State.taken_of_not_rspReady htake⟩
  · obtain ⟨-, hvalid, hflight⟩ := s.ready_iff.mp hready
    have hacc := State.accepted_of_not_cmdValid (s := s) (State.now_of_all hall rfl)
    exact ⟨act_of_idle (State.now_of_all h.noReset rfl) hvalid hflight hacc, hacc, State.taken_of_not_rspValid hvalid⟩

/-- A stalled core reaches a next state at every step, in which only the moves and the answers owed have changed, and
nothing is accepted or taken on the way. -/
theorem State.Stalled.run (h : s.Stalled) (k : Nat) :
    ∃ owed moves, Sys2Proof.core.run k s = .next { s with owed := owed, moves := moves } ∧
      State.acceptedIn k s = [] ∧ State.takenIn k s = [] := by
  induction k generalizing s with
  | zero => exact ⟨s.owed, s.moves, rfl, rfl, rfl⟩
  | succ k ih =>
    obtain ⟨hact, hacc, htaken⟩ := h.act
    have hstep := step_of_act (State.now_of_all h.noReset rfl) (State.draw_of_onlyLateAnswers h.late).2 hact
    obtain ⟨owed, moves, hrun, haccs, htakens⟩ := ih h.advance
    refine ⟨owed, moves, ?_, ?_, ?_⟩
    · rw [run_succ_of_next hstep, hrun]
      rfl
    · rw [acceptedIn_succ_of_next hstep, hacc, haccs]
      rfl
    · rw [takenIn_succ_of_next hstep, htaken, htakens]
      rfl

/-- With no command on the ports none is presented, whatever the run does. -/
theorem presentedIn_eq_nil (h : ∀ p ∈ s.moves, p.cmdValid = false) (k : Nat) : State.presentedIn k s = [] := by
  induction k generalizing s with
  | zero => rfl
  | succ k ih =>
    have hnone : s.presented = none := by
      have hcmd : s.now.cmdValid = false := State.now_of_all h rfl
      simp [State.presented, hcmd]
    rcases hstep : step s with t | r | r
    · rw [presentedIn_succ_of_next hstep, hnone, ih (moves_of_all h hstep)]
      rfl
    · cases r
    · simp [State.presentedIn, hstep, hnone]

/-- What holds of every coming move holds of those left after a run. -/
theorem run_moves_of_all {P : Inputs → Prop} {t : State} {k : Nat} (h : ∀ p ∈ s.moves, P p)
    (hrun : Sys2Proof.core.run k s = .next t) : ∀ p ∈ t.moves, P p := by
  rw [run_moves hrun]
  exact fun p hp => h p (List.mem_of_mem_drop hp)

end

/-- Settles O53: a core with a command in flight and no answer is stalled. -/
theorem silentSourceLeavesTheCoreWaiting : Obligations.SilentSourceLeavesTheCoreWaiting := by
  unfold Obligations.SilentSourceLeavesTheCoreWaiting
  intro k g s hvalid hflight hrst hlate
  have hsome : s.inFlight.isSome = true := by simp [hflight]
  have hstalled : s.Stalled := ⟨hrst, hlate, .inl ⟨hvalid, hsome⟩⟩
  obtain ⟨owed, moves, hrun, hacc, htaken⟩ := hstalled.run k
  have hrst' := State.now_of_all (run_moves_of_all hrst hrun) rfl
  exact ⟨_, hrun, hflight, hvalid, rfl, (State.entReq_iff _).mpr ⟨hrst', .inl hsome⟩,
    by simp [State.outputs, State.ready, hflight], hacc, htaken⟩

/-- Settles O54: a core whose response is not taken is stalled. -/
theorem untakenResponseWaits : Obligations.UntakenResponseWaits := by
  unfold Obligations.UntakenResponseWaits
  intro k s hvalid hmoves hlate
  have hstalled : s.Stalled :=
    ⟨fun p hp => (hmoves p hp).1, hlate, .inr (.inl ⟨hvalid, fun p hp => (hmoves p hp).2⟩)⟩
  obtain ⟨owed, moves, hrun, hacc, -⟩ := hstalled.run k
  exact ⟨_, hrun, hvalid, rfl, rfl, hacc⟩

/-- Settles O57: a core that is ready and to which no command is presented is stalled, so the further steps add nothing
to what the run records. -/
theorem endedRunStaysEnded : Obligations.EndedRunStaysEnded := by
  unfold Obligations.EndedRunStaysEnded
  rintro k j s t ⟨hready, hrst, hrun, hready', hcmd, hpresented⟩ hrst' hlate
  have hstalled : t.Stalled := ⟨hrst', hlate, .inr (.inr ⟨hready', hcmd⟩)⟩
  obtain ⟨owed, moves, hrun', hacc, htaken⟩ := hstalled.run j
  obtain ⟨hadd, haccs, htakens, hpresenteds⟩ := run_add (j := j) hrun
  rw [hacc, List.append_nil] at haccs
  rw [htaken, List.append_nil] at htakens
  rw [presentedIn_eq_nil hcmd, List.append_nil] at hpresenteds
  have hrsts : ∀ p ∈ s.moves.take (k + j), p.rst = false := by
    rw [List.take_add, ← run_moves hrun]
    exact List.forall_mem_append.mpr ⟨hrst, fun p hp => hrst' p (List.mem_of_mem_take hp)⟩
  exact ⟨_, ⟨hready, hrsts, hadd.trans hrun', hready', run_moves_of_all hcmd hrun',
    by rw [hpresenteds, haccs, hpresented]⟩, hpresenteds, htakens⟩

/-! ### A run that has ended well -/

/-- The generator that a command runs, if it is one that draws (R52). -/
def generatorOf : Instr → Option Generator
  | .encode _ _ _ => none
  | .decode _ _ => none
  | .randv4 _ _ => some .randv4
  | .randnice _ _ => some .randnice

/-- The commands accepted whose response the host has not taken, at most one: none, one that waits for its draw, or one
whose response waits (R20, R48). -/
inductive State.Outstanding (s : State) : List Instr → Prop
  | none (hvalid : s.rspValid = false) (hflight : s.inFlight = .none) : s.Outstanding []
  | draw (i : Instr) (g : Generator) (hvalid : s.rspValid = false) (hflight : s.inFlight = some g)
      (hi : generatorOf i = some g) : s.Outstanding [i]
  | response (i : Instr) (hvalid : s.rspValid = true) (hflight : s.inFlight = .none) (hanswer : answeredBy i s.rw) :
      s.Outstanding [i]

section
variable {s t : State} {is : List Instr}

/-- A core that accepts a command has answered all before it, and the host has taken the responses (R33). -/
theorem State.Outstanding.eq_nil_of_ready (h : s.Outstanding is) (hready : s.ready = true) : is = [] := by
  obtain ⟨-, hvalid, hflight⟩ := s.ready_iff.mp hready
  cases h with
  | none => rfl
  | draw i g _ hdraw => simp [hflight] at hdraw
  | response i hresponse => simp [hvalid] at hresponse

theorem State.Outstanding.advance (h : s.Outstanding is) : s.advance.Outstanding is := by
  cases h with
  | none hvalid hflight => exact .none hvalid hflight
  | draw i g hvalid hflight hi => exact .draw i g hvalid hflight hi
  | response i hvalid hflight hanswer => exact .response i hvalid hflight hanswer

/-- The slug of an `ENCODE`'s operand answers it (R90). -/
theorem answeredBy_encode (len : BitVec 8) (hi : BitVec 48) (u : UUID) (s : State) :
    answeredBy (.encode len hi u) (s.respond (.slug (slugOf u))).rw :=
  State.rw_respond_slug s _

/-- The end of a `DECODE` answers it: by its length, by its characters, or with the value (R91, R120). -/
theorem answeredBy_decode (len : BitVec 8) (chr : Slug) (s : State) :
    answeredBy (.decode len chr) (s.decodeString len chr).rw := by
  by_cases hlen : len = 22#8
  · subst hlen
    cases hsym : symbolsOf chr with
    | none =>
      rw [State.decodeString_of_invalid s hsym]
      exact .inr (.inl ⟨rfl, hsym, responseWord_status _ _⟩)
    | some sym =>
      rw [State.decodeString_of_valid s hsym]
      refine .inr (.inr ⟨rfl, sym, hsym, responseWord_status _ _, ?_⟩)
      rw [State.rw_respond, responseWord_uuid, Result.data_uuid_low]
  · rw [State.decodeString_of_len_ne s chr hlen]
    exact .inl ⟨hlen, responseWord_status _ _⟩

/-- The end of a generator command answers it: the slug of its stamped draw, or the failure (R105, R106, R123). -/
theorem answeredBy_finish {i : Instr} {g : Generator} (hi : generatorOf i = some g) (s : State) (a : Draw) :
    answeredBy i (State.finish g s a).rw := by
  cases i with
  | encode len top u => simp [generatorOf] at hi
  | decode len chr => simp [generatorOf] at hi
  | randv4 len data | randnice len data =>
    obtain rfl := Option.some.inj hi
    cases a with
    | ok r => exact .inr ⟨r, State.rw_respond_slug s _⟩
    | fail => exact .inl (responseWord_status _ _)

/-- A generator command is outstanding while it waits and when it has its answer (R35, R37). -/
theorem State.outstanding_generate {i : Instr} {g : Generator} (hvalid : s.rspValid = false)
    (hi : generatorOf i = some g) : (s.generate g).Outstanding [i] := by
  cases hdraw : s.draw with
  | none => exact State.generate_of_no_answer hdraw g ▸ .draw i g hvalid rfl hi
  | some a =>
    exact State.generate_of_answer hdraw ▸
      .response i (State.finish_rspValid g s a) (State.finish_inFlight g s a) (answeredBy_finish hi s a)

/-- An accepted command that draws is its generator's (R105, R106). -/
theorem exec_of_generatorOf {i : Instr} {g : Generator} (hready : s.ready = true) (hi : generatorOf i = some g) :
    exec i s = .next (s.generate g) := by
  cases i with
  | encode len top u => simp [generatorOf] at hi
  | decode len chr => simp [generatorOf] at hi
  | randv4 len data => exact Option.some.inj hi ▸ exec_randv4_of_ready hready len data
  | randnice len data => exact Option.some.inj hi ▸ exec_randnice_of_ready hready len data

/-- An accepted command is outstanding: it has its answer or waits for its draw (R37). -/
theorem outstanding_of_exec {i : Instr} (hready : s.ready = true) (hexec : exec i s = .next t) :
    t.Outstanding [i] := by
  obtain ⟨-, hvalid, -⟩ := s.ready_iff.mp hready
  cases i with
  | encode len top u =>
    obtain rfl := Host.Outcome.next.inj (hexec.symm.trans (exec_encode_of_ready hready len top u))
    exact .response _ rfl rfl (answeredBy_encode len top u s)
  | decode len chr =>
    obtain rfl := Host.Outcome.next.inj (hexec.symm.trans (exec_decode_of_ready hready len chr))
    have hanswer := answeredBy_decode len chr s
    obtain ⟨r, -, hr⟩ := s.decodeString_cases len chr
    rw [hr] at hanswer ⊢
    exact .response _ rfl rfl hanswer
  | randv4 len data | randnice len data =>
    obtain rfl := Host.Outcome.next.inj (hexec.symm.trans (exec_of_generatorOf hready rfl))
    exact State.outstanding_generate hvalid rfl

/-- Over one act of the core, what was outstanding and what is accepted are answered by what is taken, in order, or
outstanding after it (R37, R38). -/
theorem act_outstanding (hrst : s.now.rst = false) (hout : s.Outstanding is) (hact : act s = .next t) :
    ∃ done rest, is ++ s.accepted.toList = done ++ rest ∧ List.Forall₂ answeredBy done s.taken.toList ∧
      t.Outstanding rest := by
  cases hout with
  | none hvalid hflight =>
    refine ⟨[], s.accepted.toList, rfl, by simp [State.taken_of_not_rspValid hvalid], ?_⟩
    cases hacc : s.accepted with
    | none =>
      obtain rfl := Host.Outcome.next.inj (hact.symm.trans (act_of_idle hrst hvalid hflight hacc))
      exact .none hvalid hflight
    | some i =>
      obtain ⟨-, hready, -, -⟩ := (s.accepted_eq_some_iff i).mp hacc
      exact outstanding_of_exec hready ((act_of_accepted hacc).symm.trans hact)
  | draw i g hvalid hflight hi =>
    have hacc := State.accepted_of_not_ready (s.not_ready_iff.mpr (.inr (.inr (by simp [hflight]))))
    obtain rfl := Host.Outcome.next.inj (hact.symm.trans (act_of_inFlight hvalid hflight))
    exact ⟨[], [i], by simp [hacc], by simp [State.taken_of_not_rspValid hvalid], State.outstanding_generate hvalid hi⟩
  | response i hvalid hflight hanswer =>
    have hacc := State.accepted_of_rspValid hvalid
    obtain rfl := Host.Outcome.next.inj (hact.symm.trans (act_of_rspValid hvalid))
    cases htake : s.now.rspReady with
    | true =>
      exact ⟨[i], [], by simp [hacc], by simp [State.taken_of_rspReady hrst hvalid htake, hanswer], .none rfl hflight⟩
    | false =>
      exact ⟨[], [i], by simp [hacc], by simp [State.taken_of_not_rspReady htake], .response i hvalid hflight hanswer⟩

/-- Over a run without reset to a core that is ready, what was outstanding and what is accepted are answered by what is
taken, in order. -/
theorem run_answers (k : Nat) (hout : s.Outstanding is) (hrst : ∀ p ∈ s.moves.take k, p.rst = false)
    (hrun : Sys2Proof.core.run k s = .next t) (hready : t.ready = true) :
    List.Forall₂ answeredBy (is ++ State.acceptedIn k s) (State.takenIn k s) := by
  refine run_induction (I := fun _ => True)
    (motive := fun k s t => t.ready = true → ∀ is, s.Outstanding is →
      List.Forall₂ answeredBy (is ++ State.acceptedIn k s) (State.takenIn k s))
    (keeps := fun _ _ _ _ => trivial) (zero := fun s _ hs is his => ?_)
    (succ := fun k s s' t _ hnow hstep ih ht is his => ?_) k s t trivial hrst hrun hready is hout
  · rw [his.eq_nil_of_ready hs]
    exact .nil
  · obtain ⟨hreset, -⟩ | ⟨-, -, t', hact, rfl⟩ := step_cases hstep
    · simp [hnow] at hreset
    obtain ⟨done, rest, hsplit, hdone, hrest⟩ := act_outstanding hnow his hact
    rw [acceptedIn_succ_of_next hstep, takenIn_succ_of_next hstep, ← List.append_assoc, hsplit, List.append_assoc]
    exact List.rel_append hdone (ih ht rest hrest.advance)

/-- What is taken, and when (R34). -/
theorem State.taken_eq_some_iff (s : State) (w : ResponseWord) :
    s.taken = some w ↔ s.now.rst = false ∧ s.rspValid = true ∧ s.now.rspReady = true ∧ s.rw = w := by
  simp [State.taken, State.outputs, and_assoc]

/-- A response with status 3 is taken from a halted core only (R22, R129). -/
theorem State.halted_of_taken_status_three (hinv : s.Inv) {w : ResponseWord} (htaken : s.taken = some w)
    (hstatus : w.extractLsb' 0 2 = 3#2) : s.halted := by
  obtain ⟨-, hvalid, -, rfl⟩ := (s.taken_eq_some_iff w).mp htaken
  exact (hinv.2 hvalid).mpr (by rwa [State.rw, responseWord_status] at hstatus)

/-- A run without reset that leaves the core unhalted has halted it nowhere, and no response taken has status 3. -/
theorem run_taken_status_ne_three (k : Nat) (hinv : s.Inv) (hrst : ∀ p ∈ s.moves.take k, p.rst = false)
    (hrun : Sys2Proof.core.run k s = .next t) (hhalt : t.halt = false) :
    ∀ w ∈ State.takenIn k s, w.extractLsb' 0 2 ≠ 3#2 := by
  refine (run_induction (motive := fun k s t => t.halt = false →
      s.halt = false ∧ ∀ w ∈ State.takenIn k s, w.extractLsb' 0 2 ≠ 3#2)
    everyStepKeepsInv (zero := fun s _ hs => ⟨hs, by simp [State.takenIn]⟩)
    (succ := fun k s s' t hinv hnow hstep ih ht => ?_) k s t hinv hrst hrun hhalt).2
  obtain ⟨hs', hrest⟩ := ih ht
  have hs : s.halt = false := Bool.eq_false_iff.mpr fun hhalted =>
    Bool.eq_false_iff.mp hs' (step_of_halted hhalted hnow hstep).2
  refine ⟨hs, ?_⟩
  rw [takenIn_succ_of_next hstep]
  refine List.forall_mem_append.mpr ⟨fun w hw hstatus => ?_, hrest⟩
  exact Bool.eq_false_iff.mp hs (State.halted_of_taken_status_three hinv (Option.mem_toList.mp hw) hstatus)

end

/-- Settles O56: nothing is outstanding at the start, so the responses taken answer the commands accepted, which are
those presented; status 3 would have left the core halted. -/
theorem endedRunAnswersEveryCommand : Obligations.EndedRunAnswersEveryCommand := by
  unfold Obligations.EndedRunAnswersEveryCommand
  rintro k s t ⟨hready, hrst, hrun, hready', -, hpresented⟩
  obtain ⟨-, hvalid, hflight⟩ := s.ready_iff.mp hready
  obtain ⟨hhalt', -, -⟩ := t.ready_iff.mp hready'
  have hinv : s.Inv := by simp [State.Inv, hvalid, hflight]
  rw [hpresented]
  exact ⟨run_answers k (.none hvalid hflight) hrst hrun hready', run_taken_status_ne_three k hinv hrst hrun hhalt'⟩

end Sys2Proof.Machine
